-- ==== Sys2Proof/Word.lean ====
section
/-! DEFINITION. The widths of 00_scope.md R10 and R11: a memory word, a value, an output or input byte, a
register index. Every quantity is unsigned (R16). -/

namespace Sys2Proof

/-- A unit of memory storage: 16 bits, [0,65535] (00_scope.md R10). -/
abbrev Word := BitVec 16

/-- A resolved operand, a register's contents or a stack entry: 15 bits, [0,32767] (00_scope.md R10).
The value invariant of 10_state.md R23 holds by this type. -/
abbrev Value := BitVec 15

/-- A byte on OUT or IN: 8 bits (00_scope.md R10). -/
abbrev Byte := BitVec 8

/-- A register index, 0 to 7 (00_scope.md R11). -/
abbrev RegIdx := Fin 8

/-- One line of the host's input, without its terminator (60_exceptions.md R127). -/
abbrev Line := List Byte

end Sys2Proof
end

