-- ==== Sys2Proof/Config.lean ====
section
/-! DEFINITION. The parameters of 00_scope.md R15. The spec fixes all of them but STACK_CAPACITY, which is
a launch parameter (R13) and so a type here and a field of State. No rule leaves a result free: there are
no free values. -/

namespace Sys2Proof.Config

/-- MEM_WORDS: the number of memory cells (00_scope.md R12). -/
abbrev memWords : Nat := 65536

/-- VALUE_MOD: one more than the largest value (00_scope.md R10). -/
abbrev valueMod : Nat := 32768

/-- The newline byte (00_scope.md R15, 60_exceptions.md R126). -/
abbrev newline : Byte := 10#8

/-- STACK_CAPACITY (00_scope.md R13): `unbounded`, or a number of entries C, which R13 asks to be at
least 1 (`StackCapacity.wf`). -/
inductive StackCapacity where
  | unbounded
  | entries (c : Nat)
deriving DecidableEq, Repr

/-- A capacity that is a number is at least 1 (00_scope.md R13). -/
def StackCapacity.wf : StackCapacity → Bool
  | .unbounded => true
  | .entries c => decide (1 ≤ c)

end Sys2Proof.Config
end

