-- ==== Sys2Proof/Syntax.lean ====
section
/-! DEFINITION. The instruction set: one constructor per mnemonic of spec/opcode_table.json (30_encoding.md
R55, R60). The operands stand in the table's order a, b, c. -/

namespace Sys2Proof

/-- The class of an operand word (30_encoding.md R54). The invalid words are kept, because an instruction
that holds one is decoded and then faults at operand validation (40_engine.md R70). -/
inductive Operand where
  /-- 0 to 32767: the value itself. -/
  | literal (v : Value)
  /-- 32768 to 32775: register `w - 32768`. -/
  | register (i : RegIdx)
  /-- 32776 to 65535: no meaning. -/
  | invalid (w : Word)
deriving DecidableEq, Repr

/-- What an instruction does with an operand (30_encoding.md R55): `dst` names the register written, `src`
is resolved to a value. -/
inductive Role where
  | dst
  | src
deriving DecidableEq, Repr

/-- The instructions. `inp` is the table's `in` (a word of Lean's own); the table's 13 rows named
`unassigned` are one instruction, any selector in 22 to 65535 (30_encoding.md R60). -/
inductive Instr where
  | halt
  | set (a b : Operand)
  | push (a : Operand)
  | pop (a : Operand)
  | eq (a b c : Operand)
  | gt (a b c : Operand)
  | jmp (a : Operand)
  | jt (a b : Operand)
  | jf (a b : Operand)
  | add (a b c : Operand)
  | mult (a b c : Operand)
  | mod (a b c : Operand)
  | and (a b c : Operand)
  | or (a b c : Operand)
  | not (a b : Operand)
  | rmem (a b : Operand)
  | wmem (a b : Operand)
  | call (a : Operand)
  | ret
  | out (a : Operand)
  | inp (a : Operand)
  | noop
  | unassigned (sel : Word)
deriving DecidableEq, Repr

/-- The operands of an instruction with their roles, in the order a, b, c (30_encoding.md R55). -/
def Instr.operands : Instr → List (Role × Operand)
  | .halt => []
  | .set a b => [(.dst, a), (.src, b)]
  | .push a => [(.src, a)]
  | .pop a => [(.dst, a)]
  | .eq a b c => [(.dst, a), (.src, b), (.src, c)]
  | .gt a b c => [(.dst, a), (.src, b), (.src, c)]
  | .jmp a => [(.src, a)]
  | .jt a b => [(.src, a), (.src, b)]
  | .jf a b => [(.src, a), (.src, b)]
  | .add a b c => [(.dst, a), (.src, b), (.src, c)]
  | .mult a b c => [(.dst, a), (.src, b), (.src, c)]
  | .mod a b c => [(.dst, a), (.src, b), (.src, c)]
  | .and a b c => [(.dst, a), (.src, b), (.src, c)]
  | .or a b c => [(.dst, a), (.src, b), (.src, c)]
  | .not a b => [(.dst, a), (.src, b)]
  | .rmem a b => [(.dst, a), (.src, b)]
  | .wmem a b => [(.src, a), (.src, b)]
  | .call a => [(.src, a)]
  | .ret => []
  | .out a => [(.src, a)]
  | .inp a => [(.dst, a)]
  | .noop => []
  | .unassigned _ => []

end Sys2Proof
end

