-- ==== Sys2Proof/WellFormed.lean ====
section
/-! DEFINITION. Which terms stand for words of the machine. A term is well formed when some words decode
to it: an `invalid` operand holds a word of the invalid class, an `unassigned` selector is above 21. Whether
an instruction's operands pass validation is another question (`Instr.valid`): a well-formed instruction
with an invalid operand word is executed, and faults (40_engine.md R70). -/

namespace Sys2Proof

/-- The word of an `invalid` operand is in [32776,65535] (30_encoding.md R54). -/
def Operand.wf : Operand → Bool
  | .literal _ => true
  | .register _ => true
  | .invalid w => decide (32776 ≤ w.toNat)

/-- An unassigned selector is in [22,65535] (30_encoding.md R60). -/
def Instr.selectorWf : Instr → Bool
  | .unassigned sel => decide (22 ≤ sel.toNat)
  | _ => true

/-- A well-formed instruction: its selector and every operand stand for words. -/
def Instr.wf (i : Instr) : Bool :=
  i.selectorWf && i.operands.all fun p => p.2.wf

/-- An operand that passes validation in its role (40_engine.md R70): no invalid word, and no literal where
a register is named. -/
def Operand.validIn : Role → Operand → Bool
  | _, .register _ => true
  | .src, .literal _ => true
  | .dst, .literal _ => false
  | _, .invalid _ => false

/-- An instruction all of whose operands pass validation. -/
def Instr.valid (i : Instr) : Bool :=
  i.operands.all fun p => p.2.validIn p.1

end Sys2Proof
end

