-- ==== Sys2Proof/Decode.lean ====
section
/-! DEFINITION. The decoder and the encoder (30_encoding.md). One decoder serves both a list of words
(`decode`) and the engine's fetch: `decodeOperands` is given the selector and a reader of the k-th operand
word, and reads exactly the words its row asks for, in ascending order (40_engine.md R68, R69). -/

namespace Sys2Proof

/-! ## Operand words -/

/-- The class of an operand word (30_encoding.md R54). -/
def Operand.ofWord (w : Word) : Operand :=
  if w.toNat ≤ 32767 then .literal (w.setWidth 15)
  else if w.toNat ≤ 32775 then .register (Fin.ofNat 8 (w.toNat - 32768))
  else .invalid w

/-- The word that stands for an operand (30_encoding.md R54). -/
def Operand.toWord : Operand → Word
  | .literal v => v.setWidth 16
  | .register i => BitVec.ofNat 16 (32768 + i.val)
  | .invalid w => w

/-! ## The opcode map -/

/-- The number of operand words of a selector (30_encoding.md R55; 0 for every unassigned one, R60). -/
def arity (sel : Word) : Nat :=
  match sel.toNat with
  | 1 | 7 | 8 | 14 | 15 | 16 => 2
  | 2 | 3 | 6 | 17 | 19 | 20 => 1
  | 4 | 5 | 9 | 10 | 11 | 12 | 13 => 3
  | _ => 0

/-- A format F1 row: read word a. -/
def decodeF1 {ε : Type} (rd : Nat → Except ε Word) (mk : Operand → Instr) : Except ε Instr :=
  match rd 1 with
  | .error e => .error e
  | .ok a => .ok (mk (.ofWord a))

/-- A format F2 row: read words a and b, in this order. -/
def decodeF2 {ε : Type} (rd : Nat → Except ε Word) (mk : Operand → Operand → Instr) : Except ε Instr :=
  match rd 1 with
  | .error e => .error e
  | .ok a =>
    match rd 2 with
    | .error e => .error e
    | .ok b => .ok (mk (.ofWord a) (.ofWord b))

/-- A format F3 row: read words a, b and c, in this order. -/
def decodeF3 {ε : Type} (rd : Nat → Except ε Word) (mk : Operand → Operand → Operand → Instr) :
    Except ε Instr :=
  match rd 1 with
  | .error e => .error e
  | .ok a =>
    match rd 2 with
    | .error e => .error e
    | .ok b =>
      match rd 3 with
      | .error e => .error e
      | .ok c => .ok (mk (.ofWord a) (.ofWord b) (.ofWord c))

/-- The instruction of a selector whose k-th operand word (k = 1, 2, 3) the reader gives. The first word
that cannot be read is the answer's error. -/
def decodeOperands {ε : Type} (sel : Word) (rd : Nat → Except ε Word) : Except ε Instr :=
  match sel.toNat with
  | 0 => .ok .halt
  | 1 => decodeF2 rd .set
  | 2 => decodeF1 rd .push
  | 3 => decodeF1 rd .pop
  | 4 => decodeF3 rd .eq
  | 5 => decodeF3 rd .gt
  | 6 => decodeF1 rd .jmp
  | 7 => decodeF2 rd .jt
  | 8 => decodeF2 rd .jf
  | 9 => decodeF3 rd .add
  | 10 => decodeF3 rd .mult
  | 11 => decodeF3 rd .mod
  | 12 => decodeF3 rd .and
  | 13 => decodeF3 rd .or
  | 14 => decodeF2 rd .not
  | 15 => decodeF2 rd .rmem
  | 16 => decodeF2 rd .wmem
  | 17 => decodeF1 rd .call
  | 18 => .ok .ret
  | 19 => decodeF1 rd .out
  | 20 => decodeF1 rd .inp
  | 21 => .ok .noop
  | _ => .ok (.unassigned sel)

/-! ## Lists of words -/

/-- Why a list of words is no instruction. No selector is illegal (30_encoding.md R61): only missing words
make decoding fail. -/
inductive DecodeError where
  /-- There is no selector word. -/
  | noSelector
  /-- The k-th operand word (k = 1, 2, 3) is missing. -/
  | missingOperand (k : Nat)
deriving DecidableEq, Repr

/-- The k-th operand word (k from 1) of the words after the selector. -/
def operandOfList (rest : List Word) (k : Nat) : Except DecodeError Word :=
  match rest[k - 1]? with
  | some w => .ok w
  | none => .error (.missingOperand k)

/-- The instruction at the head of a list of words, and the words after it (30_encoding.md R51, R53). -/
def decode : List Word → Except DecodeError (Instr × List Word)
  | [] => .error .noSelector
  | sel :: rest =>
    match decodeOperands sel (operandOfList rest) with
    | .error e => .error e
    | .ok i => .ok (i, rest.drop (arity sel))

/-! ## The encoder -/

/-- The selector word of an instruction (30_encoding.md R55, R60). -/
def Instr.selector : Instr → Word
  | .halt => 0#16
  | .set _ _ => 1#16
  | .push _ => 2#16
  | .pop _ => 3#16
  | .eq _ _ _ => 4#16
  | .gt _ _ _ => 5#16
  | .jmp _ => 6#16
  | .jt _ _ => 7#16
  | .jf _ _ => 8#16
  | .add _ _ _ => 9#16
  | .mult _ _ _ => 10#16
  | .mod _ _ _ => 11#16
  | .and _ _ _ => 12#16
  | .or _ _ _ => 13#16
  | .not _ _ => 14#16
  | .rmem _ _ => 15#16
  | .wmem _ _ => 16#16
  | .call _ => 17#16
  | .ret => 18#16
  | .out _ => 19#16
  | .inp _ => 20#16
  | .noop => 21#16
  | .unassigned sel => sel

/-- The words of an instruction: its selector, then its operand words (30_encoding.md R51). -/
def encode (i : Instr) : List Word :=
  i.selector :: i.operands.map fun p => p.2.toWord

/-- The number of words of an instruction, 1 + its arity (00_scope.md R14). -/
def Instr.length (i : Instr) : Nat :=
  1 + i.operands.length

/-! ## The rows of spec/opcode_table.json -/

/-- One row of the opcode table: a selector word `w` is the row's when `w &&& mask = pat`. -/
structure OpcodeRow where
  mnemonic : String
  pat : Word
  mask : Word
  /-- The instruction's length in words. -/
  length : Nat
deriving DecidableEq, Repr

/-- An assigned selector's row: the mask is the whole word. -/
def assignedRow (mnemonic : String) (sel : Word) (length : Nat) : OpcodeRow :=
  ⟨mnemonic, sel, 65535#16, length⟩

/-- One of the rows that cover the unassigned selectors: one word long (30_encoding.md R60). -/
def unassignedRow (pat mask : Word) : OpcodeRow :=
  ⟨"unassigned", pat, mask, 1⟩

/-- The 22 assigned rows (30_encoding.md R55). -/
def assignedRows : List OpcodeRow :=
  [assignedRow "halt" 0#16 1, assignedRow "set" 1#16 3, assignedRow "push" 2#16 2,
   assignedRow "pop" 3#16 2, assignedRow "eq" 4#16 4, assignedRow "gt" 5#16 4] ++
  [assignedRow "jmp" 6#16 2, assignedRow "jt" 7#16 3, assignedRow "jf" 8#16 3,
   assignedRow "add" 9#16 4, assignedRow "mult" 10#16 4, assignedRow "mod" 11#16 4] ++
  [assignedRow "and" 12#16 4, assignedRow "or" 13#16 4, assignedRow "not" 14#16 3,
   assignedRow "rmem" 15#16 3, assignedRow "wmem" 16#16 3, assignedRow "call" 17#16 2] ++
  [assignedRow "ret" 18#16 1, assignedRow "out" 19#16 2, assignedRow "in" 20#16 2,
   assignedRow "noop" 21#16 1]

/-- The 13 rows of the unassigned selectors (30_encoding.md R60). -/
def unassignedRows : List OpcodeRow :=
  [unassignedRow 22#16 65534#16, unassignedRow 24#16 65528#16, unassignedRow 32#16 65504#16,
   unassignedRow 64#16 65472#16, unassignedRow 128#16 65408#16, unassignedRow 256#16 65280#16] ++
  [unassignedRow 512#16 65024#16, unassignedRow 1024#16 64512#16, unassignedRow 2048#16 63488#16,
   unassignedRow 4096#16 61440#16, unassignedRow 8192#16 57344#16, unassignedRow 16384#16 49152#16,
   unassignedRow 32768#16 32768#16]

/-- The 35 rows of spec/opcode_table.json. -/
def opcodeTable : List OpcodeRow :=
  assignedRows ++ unassignedRows

/-- Whether a selector word is a row's. -/
def OpcodeRow.covers (r : OpcodeRow) (w : Word) : Bool :=
  (w &&& r.mask) == r.pat

/-! ## The host's numbering of an instruction's bits -/

/-- The four words (the longest instruction, 00_scope.md R14) of the number `w` whose bit 0 is the least
significant bit of the first word; the bits from `nbits` on are 0. -/
def tableWords (nbits w : Nat) : List Word :=
  let v := w % 2 ^ nbits
  [BitVec.ofNat 16 v, BitVec.ofNat 16 (v / 2 ^ 16), BitVec.ofNat 16 (v / 2 ^ 32),
   BitVec.ofNat 16 (v / 2 ^ 48)]

/-- The instruction the decoder reads from those words. -/
def decodeTableWord (nbits w : Nat) : Option Instr :=
  match decode (tableWords nbits w) with
  | .ok (i, _) => some i
  | .error _ => none

end Sys2Proof
end

