-- ==== Sys2Proof/Machine/State.lean ====
section
/-! DEFINITION. The state of one machine instance (10_state.md R19), as plain data, the reasons a step does
not exist, and the state right after reset. -/

namespace Sys2Proof.Machine

open Sys2Proof.Config

/-- The unified memory (10_state.md R33): the cells that hold a word, as (address, word) pairs, addresses
strictly rising. A cell that is not listed is `UNINIT`. The core has no byte access (20_memory.md R40), so
the entries are words (log entry 1). -/
abbrev Memory := List (Nat × Word)

/-- RUN_STATE (10_state.md R30). -/
inductive RunState where
  | running
  | halted
  | faulted
deriving DecidableEq, Repr

/-- The ten faults of 60_exceptions.md R108 to R117. -/
inductive FaultKind where
  | stackUnderflow
  | divideByZero
  | invalidOperand
  | noSnapshot
  | invalidDestination
  | uninitialisedRead
  | addressOutOfRange
  | wordOutOfDomain
  | returnAddressOutOfDomain
  | stackOverflow
deriving DecidableEq, Repr

/-- The detail a fault records, as its rule names it (60_exceptions.md R108 to R117). -/
inductive FaultInfo where
  /-- StackUnderflow, DivideByZero, NoSnapshot. -/
  | none
  /-- InvalidOperand, InvalidDestination: the operand position (1, 2, 3) and the word. -/
  | operand (position : Nat) (w : Word)
  /-- UninitialisedRead, AddressOutOfRange: the address. -/
  | address (a : Nat)
  /-- WordOutOfDomain: the address and the word. -/
  | cell (a : Nat) (w : Word)
  /-- ReturnAddressOutOfDomain: the return address. -/
  | returnAddress (r : Nat)
  /-- StackOverflow: the depth. -/
  | depth (c : Nat)
deriving DecidableEq, Repr

/-- What a rule raises: a fault and its info (60_exceptions.md R107, `raise F(info)`). -/
structure Cause where
  kind : FaultKind
  info : FaultInfo
deriving DecidableEq, Repr

/-- The fault record (10_state.md R31). -/
structure FaultRecord where
  kind : FaultKind
  /-- The pc of the faulting instruction. -/
  addr : Nat
  /-- The selector word there, or none when its own fetch faulted. -/
  opcode : Option Word
  info : FaultInfo
deriving DecidableEq, Repr

/-- The snapshot slot's contents (60_exceptions.md R130): memory with its `UNINIT` marks, pc, registers. -/
structure Snapshot where
  mem : Memory
  pc : Nat
  regs : Vector Value 8
deriving DecidableEq, Repr

/-- The state of one machine instance (10_state.md R19), with two fields of the model's own: `cap`, the
launch parameter STACK_CAPACITY (log entry 3), and `lines`, the host's input (log entry 4). -/
structure State where
  /-- The unified memory (R33). -/
  mem : Memory
  /-- The registers r0 to r7 (R20). -/
  regs : Vector Value 8
  /-- The stack; its last element is the top (R28). -/
  stack : List Value
  /-- The program counter, in [0,65536] (R25). -/
  pc : Nat
  /-- The run state (R30). -/
  run : RunState
  /-- The fault record (R31). -/
  fault : Option FaultRecord
  /-- The IOChannel line buffer (R34). -/
  inbuf : List Byte
  /-- The snapshot slot (R34). -/
  snap : Option Snapshot
  /-- The bytes delivered on OUT so far, in order (R34). -/
  outlog : List Byte
  /-- STACK_CAPACITY (00_scope.md R13). -/
  cap : StackCapacity
  /-- The lines IN gives, next first, that no `in` has taken yet (60_exceptions.md R127). -/
  lines : List Line
deriving DecidableEq, Repr

/-- Why there is no step. These are not the faults of 60_exceptions.md: those are next states with
`run = faulted` and a fault record (log entry 5). -/
inductive Fault where
  /-- `step`, when `run` is Halted: no step exists (40_engine.md R76). Safe: the spec has no next state. -/
  | noStepHalted
  /-- `step`, when `run` is Faulted: no step exists (40_engine.md R76). Safe: the spec has no next state. -/
  | noStepFaulted
  /-- `in`, with `inbuf` empty and no line from IN: the step does not happen (40_engine.md R77). Safe: the
  spec has no next state; a line (`State.deliverLine`) ends the wait. -/
  | awaitingLine
deriving DecidableEq, Repr

/-- Why an instruction has no meaning. No meaning of this model refuses. -/
inductive Refusal where
  /-- An arm of `exec` without a meaning; no arm is so. Safe: the machine stops. -/
  | notModelled (mnemonic : String)
deriving DecidableEq, Repr

/-- The outcome of an instruction or a step. -/
abbrev Result := Host.Outcome State Fault Refusal

/-- The state right after reset (70_reset_and_hazards.md R139) for the empty image, which R138 accepts
(log entry 7). `cap` and `lines` are log entries 3 and 4. -/
def State.reset : State where
  mem := []
  regs := Vector.replicate 8 0#15
  stack := []
  pc := 0
  run := .running
  fault := none
  inbuf := []
  snap := none
  outlog := []
  cap := .unbounded
  lines := []

end Sys2Proof.Machine
end

