-- ==== Sys2Proof/Machine/Ops.lean ====
section
/-! DEFINITION. The operations every instruction is written with: memory cells (20_memory.md R36, R37), the
register file (10_state.md R21), the stack controller (43_stack.md R83, R84), the fault mechanism
(60_exceptions.md R107) and the other writes of single fields. There is no return from a fault (R121). -/

namespace Sys2Proof.Machine

open Sys2Proof.Config

/-! ## Memory -/

/-- What a cell holds: a word, or none for `UNINIT` (10_state.md R33). -/
def Memory.cell : Memory → Nat → Option Word
  | [], _ => none
  | (b, w) :: rest, a => if a = b then some w else Memory.cell rest a

/-- The memory whose cell `a` holds `w` and whose other cells are as before (20_memory.md R37). -/
def Memory.write : Memory → Nat → Word → Memory
  | [], a, w => [(a, w)]
  | (b, v) :: rest, a, w =>
    if a < b then (a, w) :: (b, v) :: rest
    else if a = b then (a, w) :: rest
    else (b, v) :: Memory.write rest a w

/-- The canonical form: addresses strictly rising, and each below MEM_WORDS. No entry can equal what an
unlisted cell holds, which is no word. -/
abbrev Memory.wf (m : Memory) : Prop :=
  (m.map Prod.fst).Pairwise (· < ·) ∧ ∀ c ∈ m, c.1 < memWords

/-- `MemRead(addr, 1)` (20_memory.md R36). -/
def memRead (m : Memory) (addr : Nat) : Except Cause Word :=
  if memWords ≤ addr then .error ⟨.addressOutOfRange, .address addr⟩
  else
    match Memory.cell m addr with
    | none => .error ⟨.uninitialisedRead, .address addr⟩
    | some w => .ok w

/-- The words at `a`, `a + 1`, …; a word past the last cell is dropped. -/
def Memory.writeAll : Memory → Nat → List Word → Memory
  | m, _, [] => m
  | m, a, w :: ws => Memory.writeAll (if a < memWords then Memory.write m a w else m) (a + 1) ws

/-! ## Registers and single fields -/

/-- `x[i]` (10_state.md R21). -/
def State.getReg (s : State) (i : RegIdx) : Value :=
  s.regs[i.val]

/-- `x[i] <- v` (10_state.md R21). No register is hardwired (R20). -/
def State.setReg (s : State) (i : RegIdx) (v : Value) : State :=
  { s with regs := s.regs.set i.val v }

/-- `pc <- target` (10_state.md R25). -/
def State.setPc (s : State) (target : Nat) : State :=
  { s with pc := target }

/-- The default advance past an instruction of `n` words (10_state.md R26). -/
def State.advance (s : State) (n : Nat) : State :=
  s.setPc (s.pc + n)

/-- `MemWrite(addr, 1, w)` (20_memory.md R37). -/
def State.memWrite (s : State) (addr : Nat) (w : Word) : State :=
  { s with mem := Memory.write s.mem addr w }

/-- `run <- Halted` (10_state.md R30). -/
def State.halt (s : State) : State :=
  { s with run := .halted }

/-! ## The fault mechanism -/

/-- The code of a fault (60_exceptions.md, table before R108). -/
def FaultKind.code : FaultKind → Nat
  | .stackUnderflow => 1
  | .divideByZero => 2
  | .invalidOperand => 3
  | .noSnapshot => 4
  | .invalidDestination => 5
  | .uninitialisedRead => 6
  | .addressOutOfRange => 7
  | .wordOutOfDomain => 8
  | .returnAddressOutOfDomain => 9
  | .stackOverflow => 10

/-- `raise F(info)` (60_exceptions.md R107): the run state and the fault record, and nothing else. `opcode`
is the selector of the faulting instruction, or none when its fetch faulted. -/
def State.raise (s : State) (opcode : Option Word) (c : Cause) : State :=
  { s with
    run := .faulted
    fault := some { kind := c.kind, addr := s.pc, opcode := opcode, info := c.info } }

/-- An instruction with selector `sel` that faults. -/
def raiseAt (sel : Word) (kind : FaultKind) (info : FaultInfo) (s : State) : Result :=
  .next (s.raise (some sel) ⟨kind, info⟩)

/-- The status outputs (00_scope.md R9). -/
def State.status (s : State) : RunState × Option FaultRecord :=
  (s.run, s.fault)

/-! ## The stack controller -/

/-- Whether the stack holds exactly STACK_CAPACITY entries (43_stack.md R83). -/
def State.stackFull (s : State) : Bool :=
  match s.cap with
  | .unbounded => false
  | .entries c => s.stack.length == c

/-- The stack with one more entry on top. -/
def State.pushed (s : State) (v : Value) : State :=
  { s with stack := s.stack ++ [v] }

/-- The stack without its top entry. -/
def State.popped (s : State) : State :=
  { s with stack := s.stack.dropLast }

/-- `Push(v)` (43_stack.md R83) in an instruction with selector `sel`, then `f` on the state after it. -/
def withPush (sel : Word) (v : Value) (s : State) (f : State → Result) : Result :=
  if s.stackFull then raiseAt sel .stackOverflow (.depth s.stack.length) s
  else f (s.pushed v)

/-- `Pop()` (43_stack.md R84): `f` on the top entry and the state without it, or `empty` when there is
none; the caller says what that means. -/
def withPop (s : State) (empty : Result) (f : Value → State → Result) : Result :=
  match s.stack.getLast? with
  | none => empty
  | some v => f v s.popped

end Sys2Proof.Machine
end

