-- ==== Sys2Proof/Machine/Operands.lean ====
section
/-! DEFINITION. Operand validation and resolution (40_engine.md R70, R71; 30_encoding.md R57, R58). An
instruction's meaning takes its operands in the order a, b, c through `withDst` and `withSrc`, each of which
checks one operand. Resolution reads the state before the instruction and changes nothing, so resolving an
operand before the next one is checked gives what R66 gives (log entry 9). -/

namespace Sys2Proof.Machine

/-- `resolve(w)` (30_encoding.md R57): the value of a source operand; an invalid word has none. -/
def resolve (s : State) : Operand → Option Value
  | .literal v => some v
  | .register i => some (s.getReg i)
  | .invalid _ => none

/-- `dest(w)` (30_encoding.md R58): the register a destination operand names; no other word names one. -/
def dest : Operand → Option RegIdx
  | .register i => some i
  | .literal _ => none
  | .invalid _ => none

/-- The fault of a destination operand that names no register (40_engine.md R70). -/
def dstFault : Operand → FaultKind
  | .invalid _ => .invalidOperand
  | .literal _ => .invalidDestination
  | .register _ => .invalidDestination

/-- The source operand at position `k` of an instruction with selector `sel`: `f` on its value, or
InvalidOperand (60_exceptions.md R110). -/
def withSrc (sel : Word) (k : Nat) (o : Operand) (s : State) (f : Value → Result) : Result :=
  match resolve s o with
  | some v => f v
  | none => raiseAt sel .invalidOperand (.operand k o.toWord) s

/-- The destination operand, which is always at position 1: `f` on its register, or InvalidOperand or
InvalidDestination (60_exceptions.md R110, R112). -/
def withDst (sel : Word) (o : Operand) (s : State) (f : RegIdx → Result) : Result :=
  match dest o with
  | some d => f d
  | none => raiseAt sel (dstFault o) (.operand 1 o.toWord) s

/-- The end of an instruction of `n` words that writes `v` to register `d` and changes nothing else but pc
(40_engine.md R72, R73). -/
def writeBack (d : RegIdx) (v : Value) (n : Nat) (s : State) : Result :=
  .next ((s.setReg d v).advance n)

end Sys2Proof.Machine
end

