-- ==== Sys2Proof/Machine/Flags.lean ====
section
/-! DEFINITION. The machine has no flags (10_state.md R32). What another machine's flags would say, a
comparison writes to a register as 0 or 1 (44_alu.md R87), and a branch tests a resolved operand. -/

namespace Sys2Proof.Machine

/-- The value a comparison writes: exactly 0 or 1 (44_alu.md R87). -/
def truthValue (p : Bool) : Value :=
  if p then 1#15 else 0#15

/-- The result of `eq` (44_alu.md R88). -/
def eqValue (b c : Value) : Value :=
  truthValue (b.toNat == c.toNat)

/-- The result of `gt`: unsigned, strict (44_alu.md R89). -/
def gtValue (b c : Value) : Value :=
  truthValue (decide (c.toNat < b.toNat))

/-- The condition `jt` and `jf` test: the resolved value is nonzero (45_control.md R98, R99). -/
def isNonzero (v : Value) : Bool :=
  v.toNat != 0

end Sys2Proof.Machine
end

