-- ==== Sys2Proof/Machine/Alu.lean ====
section
/-! DEFINITION. The integer ALU (44_alu.md): eq, gt, add, mult, mod, and, or, not. -/

namespace Sys2Proof.Machine

open Sys2Proof.Config

/-! ## Results -/

/-- The exact sum reduced mod 32768 (44_alu.md R90). -/
def addValue (b c : Value) : Value :=
  BitVec.ofNat 15 ((b.toNat + c.toNat) % valueMod)

/-- The exact product reduced mod 32768 (44_alu.md R91). -/
def multValue (b c : Value) : Value :=
  BitVec.ofNat 15 ((b.toNat * c.toNat) % valueMod)

/-- The remainder of b divided by c, for c nonzero (44_alu.md R92). -/
def modValue (b c : Value) : Value :=
  BitVec.ofNat 15 (b.toNat % c.toNat)

/-- The 15-bit inverse (44_alu.md R95). -/
def notValue (b : Value) : Value :=
  b ^^^ 32767#15

/-! ## The shape of the three-operand instructions -/

/-- An instruction `a, b, c` with selector `sel` that writes `f b c` to register a. -/
def alu3 (sel : Word) (f : Value → Value → Value) (a b c : Operand) (s : State) : Result :=
  withDst sel a s fun d =>
  withSrc sel 2 b s fun vb =>
  withSrc sel 3 c s fun vc =>
  writeBack d (f vb vc) 4 s

/-! ## Meanings -/

/-- `eq a, b, c` (44_alu.md R88). -/
def execEq (a b c : Operand) (s : State) : Result :=
  alu3 (Instr.selector (.eq a b c)) eqValue a b c s

/-- `gt a, b, c` (44_alu.md R89). -/
def execGt (a b c : Operand) (s : State) : Result :=
  alu3 (Instr.selector (.gt a b c)) gtValue a b c s

/-- `add a, b, c` (44_alu.md R90). -/
def execAdd (a b c : Operand) (s : State) : Result :=
  alu3 (Instr.selector (.add a b c)) addValue a b c s

/-- `mult a, b, c` (44_alu.md R91). -/
def execMult (a b c : Operand) (s : State) : Result :=
  alu3 (Instr.selector (.mult a b c)) multValue a b c s

/-- `mod a, b, c` (44_alu.md R92), with DivideByZero after operand validation (40_engine.md R74). -/
def execMod (a b c : Operand) (s : State) : Result :=
  let sel := Instr.selector (.mod a b c)
  withDst sel a s fun d =>
  withSrc sel 2 b s fun vb =>
  withSrc sel 3 c s fun vc =>
  if vc.toNat = 0 then raiseAt sel .divideByZero .none s
  else writeBack d (modValue vb vc) 4 s

/-- `and a, b, c` (44_alu.md R93). -/
def execAnd (a b c : Operand) (s : State) : Result :=
  alu3 (Instr.selector (.and a b c)) (fun vb vc => vb &&& vc) a b c s

/-- `or a, b, c` (44_alu.md R94). -/
def execOr (a b c : Operand) (s : State) : Result :=
  alu3 (Instr.selector (.or a b c)) (fun vb vc => vb ||| vc) a b c s

/-- `not a, b` (44_alu.md R95). -/
def execNot (a b : Operand) (s : State) : Result :=
  let sel := Instr.selector (.not a b)
  withDst sel a s fun d =>
  withSrc sel 2 b s fun vb =>
  writeBack d (notValue vb) 3 s

end Sys2Proof.Machine
end

