-- ==== Sys2Proof/Machine/Control.lean ====
section
/-! DEFINITION. Control transfer (45_control.md): jmp, jt, jf, call, ret. Every target is absolute (R96). -/

namespace Sys2Proof.Machine

open Sys2Proof.Config

/-- `jmp a` (45_control.md R97). -/
def execJmp (a : Operand) (s : State) : Result :=
  withSrc (Instr.selector (.jmp a)) 1 a s fun va =>
  .next (s.setPc va.toNat)

/-- `jt a, b` (45_control.md R98): the target is validated whether or not the branch is taken. -/
def execJt (a b : Operand) (s : State) : Result :=
  let sel := Instr.selector (.jt a b)
  withSrc sel 1 a s fun va =>
  withSrc sel 2 b s fun vb =>
  if isNonzero va then .next (s.setPc vb.toNat) else .next (s.advance 3)

/-- `jf a, b` (45_control.md R99). -/
def execJf (a b : Operand) (s : State) : Result :=
  let sel := Instr.selector (.jf a b)
  withSrc sel 1 a s fun va =>
  withSrc sel 2 b s fun vb =>
  if isNonzero va then .next (s.advance 3) else .next (s.setPc vb.toNat)

/-- The return address of a `call` at `pc` (45_control.md R100). -/
def returnAddress (pc : Nat) : Nat :=
  pc + 2

/-- `call a` (45_control.md R100): ReturnAddressOutOfDomain, then StackOverflow (40_engine.md R74). -/
def execCall (a : Operand) (s : State) : Result :=
  let sel := Instr.selector (.call a)
  withSrc sel 1 a s fun va =>
  if valueMod ≤ returnAddress s.pc then
    raiseAt sel .returnAddressOutOfDomain (.returnAddress (returnAddress s.pc)) s
  else
    withPush sel (BitVec.ofNat 15 (returnAddress s.pc)) s fun t =>
    .next (t.setPc va.toNat)

/-- `ret` (45_control.md R101): on the empty stack it halts, with pc left where it is. -/
def execRet (s : State) : Result :=
  withPop s (.next s.halt) fun v t =>
  .next (t.setPc v.toNat)

end Sys2Proof.Machine
end

