-- ==== Sys2Proof/Machine/Io.lean ====
section
/-! DEFINITION. Input and output (47_io.md), the IOChannel and the SnapshotManager (60_exceptions.md R125 to
R132): out, in. -/

namespace Sys2Proof.Machine

open Sys2Proof.Config

/-! ## The output port -/

/-- `emit(b)` (60_exceptions.md R125). -/
def State.emit (s : State) (b : Byte) : State :=
  { s with outlog := s.outlog ++ [b] }

/-- The byte `out` delivers: the value mod 256 (47_io.md R105). -/
def outByte (v : Value) : Byte :=
  BitVec.ofNat 8 (v.toNat % 256)

/-- `out a` (47_io.md R105). It never waits (60_exceptions.md R125). -/
def execOut (a : Operand) (s : State) : Result :=
  withSrc (Instr.selector (.out a)) 1 a s fun va =>
  .next ((s.emit (outByte va)).advance 2)

/-! ## The interception test -/

/-- The letter-only case fold (60_exceptions.md R129): each byte 65 to 90 to the byte 32 above it. -/
def foldByte (b : Byte) : Byte :=
  if 65 ≤ b.toNat ∧ b.toNat ≤ 90 then b + 32#8 else b

/-- `StartsCI(L, p)` (60_exceptions.md R129). -/
def startsCI : Line → List Byte → Bool
  | _, [] => true
  | [], _ :: _ => false
  | b :: l, p :: ps => foldByte b == p && startsCI l ps

/-- "save" (60_exceptions.md R129). -/
def saveWord : List Byte := [115#8, 97#8, 118#8, 101#8]

/-- "load" (60_exceptions.md R129). -/
def loadWord : List Byte := [108#8, 111#8, 97#8, 100#8]

/-! ## The snapshot slot -/

/-- Save: a copy of memory, pc and registers (60_exceptions.md R130). -/
def State.saveSnapshot (s : State) : State :=
  { s with snap := some { mem := s.mem, pc := s.pc, regs := s.regs } }

/-- Load: memory, pc and registers from a snapshot, and nothing else (60_exceptions.md R131). -/
def State.restore (s : State) (sn : Snapshot) : State :=
  { s with mem := sn.mem, pc := sn.pc, regs := sn.regs }

/-! ## The input port -/

/-- The line buffer's contents (10_state.md R34). -/
def State.setInbuf (s : State) (bs : List Byte) : State :=
  { s with inbuf := bs }

/-- The lines IN has still to give. -/
def State.setLines (s : State) (ls : List Line) : State :=
  { s with lines := ls }

/-- The value of a byte in a register (47_io.md R106). -/
def byteValue (b : Byte) : Value :=
  b.setWidth 15

/-- One byte `b` goes to register `d` and `rest` stays in the buffer (47_io.md R106). -/
def giveByte (d : RegIdx) (b : Byte) (rest : List Byte) (s : State) : Result :=
  writeBack d (byteValue b) 2 (s.setInbuf rest)

/-- The first byte of `L ++ [10]` and the rest (60_exceptions.md R126). -/
def refill : Line → Byte × List Byte
  | [] => (newline, [])
  | b :: l => (b, l ++ [newline])

/-- `in` with selector `sel` and destination `d`, after IN gave the line `l`; `s` is the state with the line
already taken (40_engine.md R75). -/
def takeLine (sel : Word) (d : RegIdx) (l : Line) (s : State) : Result :=
  if startsCI l saveWord then .next s.saveSnapshot
  else if startsCI l loadWord then
    match s.snap with
    | none => raiseAt sel .noSnapshot .none s
    | some sn => .next (s.restore sn)
  else giveByte d (refill l).1 (refill l).2 s

/-- `in a` (47_io.md R106). Operand checks come before any line is asked for (40_engine.md R77); with the
buffer empty and no line from IN there is no step. -/
def execInp (a : Operand) (s : State) : Result :=
  let sel := Instr.selector (.inp a)
  withDst sel a s fun d =>
  match s.inbuf with
  | b :: rest => giveByte d b rest s
  | [] =>
    match s.lines with
    | [] => .fault .awaitingLine
    | l :: ls => takeLine sel d l (s.setLines ls)

end Sys2Proof.Machine
end

