-- ==== Sys2Proof/Machine/MemoryAccess.lean ====
section
/-! DEFINITION. Memory access instructions (46_memory_access.md): rmem, wmem. -/

namespace Sys2Proof.Machine

open Sys2Proof.Config

/-- `rmem a, b` (46_memory_access.md R103): UninitialisedRead, then WordOutOfDomain. -/
def execRmem (a b : Operand) (s : State) : Result :=
  let sel := Instr.selector (.rmem a b)
  withDst sel a s fun d =>
  withSrc sel 2 b s fun addr =>
  match memRead s.mem addr.toNat with
  | .error c => .next (s.raise (some sel) c)
  | .ok w =>
    if valueMod ≤ w.toNat then raiseAt sel .wordOutOfDomain (.cell addr.toNat w) s
    else writeBack d (w.setWidth 15) 3 s

/-- The cell a `wmem` whose address operand resolves to `v` writes (46_memory_access.md R104). -/
def storeAddress (v : Value) : Nat :=
  v.toNat

/-- `wmem a, b` (46_memory_access.md R104). -/
def execWmem (a b : Operand) (s : State) : Result :=
  let sel := Instr.selector (.wmem a b)
  withSrc sel 1 a s fun addr =>
  withSrc sel 2 b s fun vb =>
  .next ((s.memWrite (storeAddress addr) (vb.setWidth 16)).advance 3)

end Sys2Proof.Machine
end

