-- ==== Sys2Proof/Machine/Move.lean ====
section
/-! DEFINITION. The register move (42_move.md): set. -/

namespace Sys2Proof.Machine

/-- `set a, b` (42_move.md R82). -/
def execSet (a b : Operand) (s : State) : Result :=
  let sel := Instr.selector (.set a b)
  withDst sel a s fun d =>
  withSrc sel 2 b s fun vb =>
  writeBack d vb 3 s

end Sys2Proof.Machine
end

