-- ==== Sys2Proof/Machine/Stack.lean ====
section
/-! DEFINITION. The stack instructions (43_stack.md): push, pop. -/

namespace Sys2Proof.Machine

/-- `push a` (43_stack.md R85). -/
def execPush (a : Operand) (s : State) : Result :=
  let sel := Instr.selector (.push a)
  withSrc sel 1 a s fun va =>
  withPush sel va s fun t =>
  .next (t.advance 2)

/-- `pop a` (43_stack.md R86): StackUnderflow on the empty stack, after operand validation. -/
def execPop (a : Operand) (s : State) : Result :=
  let sel := Instr.selector (.pop a)
  withDst sel a s fun d =>
  withPop s (raiseAt sel .stackUnderflow .none s) fun v t =>
  writeBack d v 2 t

end Sys2Proof.Machine
end

