-- ==== Sys2Proof/Machine/System.lean ====
section
/-! DEFINITION. System instructions (41_system.md): halt, noop, the unassigned selectors. -/

namespace Sys2Proof.Machine

/-- `halt` (41_system.md R79): pc is left where it is. -/
def execHalt (s : State) : Result :=
  .next s.halt

/-- `noop` (41_system.md R80). -/
def execNoop (s : State) : Result :=
  .next (s.advance 1)

/-- An unassigned selector (41_system.md R81): no operand word is read. -/
def execUnassigned (_sel : Word) (s : State) : Result :=
  .next (s.advance 1)

end Sys2Proof.Machine
end

