-- ==== Sys2Proof/Machine/Fetch.lean ====
section
/-! DEFINITION. Instruction fetch (40_engine.md R67 to R69): every word is read from the current memory
(20_memory.md R49). -/

namespace Sys2Proof.Machine

/-- The reader the decoder is given: the k-th operand word is `MemRead(A + k, 1)` (40_engine.md R69). -/
def operandAt (s : State) (k : Nat) : Except Cause Word :=
  memRead s.mem (s.pc + k)

/-- The instruction at pc, or the fault of the first word that cannot be read, with the opcode its record
shows: none for the selector's own fetch, the selector for an operand's (40_engine.md R67, R69). -/
def fetch (s : State) : Except (Option Word × Cause) Instr :=
  match memRead s.mem s.pc with
  | .error c => .error (none, c)
  | .ok sel =>
    match decodeOperands sel (operandAt s) with
    | .error c => .error (some sel, c)
    | .ok i => .ok i

/-- The state with `words` stored from pc on, ready to step: Running, and so with no fault record
(10_state.md R31). -/
def State.placeAtPc (s : State) (words : List Word) : State :=
  { s with mem := Memory.writeAll s.mem s.pc words, run := .running, fault := none }

end Sys2Proof.Machine
end

