-- ==== Sys2Proof/Machine/Step.lean ====
section
/-! DEFINITION. One step of the engine (40_engine.md R65 to R78), and the host's way to place one instruction
where the next step fetches it. -/

namespace Sys2Proof.Machine

/-- One step: it exists only when `run` is Running (40_engine.md R65, R76); a fetch that faults is a step
that raises its fault (R67, R69). -/
def step (s : State) : Host.Outcome State Fault Refusal :=
  match s.run with
  | .halted => .fault .noStepHalted
  | .faulted => .fault .noStepFaulted
  | .running =>
    match fetch s with
    | .error (opcode, c) => .next (s.raise opcode c)
    | .ok i => exec i s

/-- `s` with the instruction of the number `w` (numbered as spec/opcode_table.json numbers bits) at pc, up
to the longest instruction, four words (log entry 8). -/
def State.withFetchWord (s : State) (nbits w : Nat) : State :=
  s.placeAtPc (tableWords nbits w)

end Sys2Proof.Machine
end

