-- ==== Sys2Proof/Machine/Boot.lean ====
section
/-! DEFINITION. How a machine instance comes into being, and what the outside does to it afterwards: the image
interface (00_scope.md R6, 70_reset_and_hazards.md R136 to R139) and the input port (00_scope.md R8). -/

namespace Sys2Proof.Machine

open Sys2Proof.Config

/-- Each pair of bytes as a word, the first byte the low one (70_reset_and_hazards.md R137); none for an odd
number of bytes. -/
def pairBytes : List Byte → Option (List Word)
  | [] => some []
  | [_] => none
  | lo :: hi :: rest => (pairBytes rest).map fun ws => BitVec.ofNat 16 (lo.toNat + 256 * hi.toNat) :: ws

/-- The image of a file; none for a file the loader constructs no machine from (70_reset_and_hazards.md
R138). -/
def assembleImage (bytes : List Byte) : Option (List Word) :=
  if bytes.length ≤ 2 * memWords then pairBytes bytes else none

/-- The cells of an image loaded at address `a`: word k in cell a + k (70_reset_and_hazards.md R137). -/
def Memory.ofImage : Nat → List Word → Memory
  | _, [] => []
  | a, w :: ws => (a, w) :: Memory.ofImage (a + 1) ws

/-- The machine right after construction from an image, with the launch parameter STACK_CAPACITY and the
host's input (70_reset_and_hazards.md R136, R139). -/
def State.boot (image : List Word) (cap : StackCapacity) (lines : List Line) : State :=
  { State.reset with mem := Memory.ofImage 0 image, cap := cap, lines := lines }

/-- The host gives one more line on IN (00_scope.md R8): the only event from outside after reset (R5). -/
def State.deliverLine (s : State) (l : Line) : State :=
  { s with lines := s.lines ++ [l] }

end Sys2Proof.Machine
end

