-- ==== Sys2Proof/Safety.lean ====
section
/-! DEFINITION. The words the statements are made of: the machine's conditions (60_exceptions.md R135), the
invariant of its states, what an instruction keeps, what a fault does, and a run of several instructions. -/

namespace Sys2Proof.Machine

open Sys2Proof.Config

/-! ## Conditions -/

/-- Waiting (40_engine.md R77): Running, the instruction at pc is an `in` with a register destination, the
line buffer is empty and IN has no line. -/
def State.waiting (s : State) : Bool :=
  s.run == .running && s.inbuf.isEmpty && s.lines.isEmpty &&
    match fetch s with
    | .ok (.inp (.register _)) => true
    | _ => false

/-- The four conditions of the machine (60_exceptions.md R135). -/
inductive Condition where
  | running
  | waiting
  | halted
  | faulted
deriving DecidableEq, Repr

/-- The condition a state is in (60_exceptions.md R135). -/
def State.condition (s : State) : Condition :=
  match s.run with
  | .halted => .halted
  | .faulted => .faulted
  | .running => if s.waiting then .waiting else .running

/-! ## The invariant -/

/-- The info a fault's rule names, with the range its rule gives it (60_exceptions.md R108 to R117). -/
def FaultInfo.fits : FaultKind → FaultInfo → Bool
  | .stackUnderflow, .none => true
  | .divideByZero, .none => true
  | .noSnapshot, .none => true
  | .invalidOperand, .operand k w => decide (1 ≤ k ∧ k ≤ 3 ∧ 32776 ≤ w.toNat)
  | .invalidDestination, .operand k w => decide (k = 1 ∧ w.toNat ≤ 32767)
  | .uninitialisedRead, .address a => decide (a < memWords)
  | .addressOutOfRange, .address a => decide (memWords ≤ a)
  | .wordOutOfDomain, .cell a w => decide (a ≤ 32767 ∧ 32768 ≤ w.toNat)
  | .returnAddressOutOfDomain, .returnAddress r => decide (32768 ≤ r)
  | .stackOverflow, .depth c => decide (1 ≤ c)
  | _, _ => false

/-- A fault record some rule writes: only a fetch fault may have no opcode (10_state.md R31). -/
def FaultRecord.wf (r : FaultRecord) : Bool :=
  r.info.fits r.kind &&
    (r.opcode.isSome || r.kind == .uninitialisedRead || r.kind == .addressOutOfRange)

/-- A line never holds the byte 10 (60_exceptions.md R127). -/
def lineOk (l : Line) : Bool :=
  l.all fun b => b != newline

/-- The line buffer is empty or the end of a line with its byte 10 (60_exceptions.md R126). -/
def inbufOk : List Byte → Bool
  | [] => true
  | [b] => b == newline
  | b :: rest => b != newline && inbufOk rest

/-- A stack within STACK_CAPACITY (43_stack.md R83). -/
def stackFits : StackCapacity → List Value → Bool
  | .unbounded, _ => true
  | .entries c, st => decide (st.length ≤ c)

/-- A snapshot some save made: its memory is canonical and holds at its pc the selector of the `in` that
was executing (60_exceptions.md R130, R131). -/
structure Snapshot.Ok (sn : Snapshot) : Prop where
  mem : Memory.wf sn.mem
  atIn : Memory.cell sn.mem sn.pc = some 20#16

/-- What holds of every state a run reaches, whatever the image, STACK_CAPACITY and the host's input. The
value domain of 10_state.md R23 holds by the type of registers and stack entries. -/
structure State.Inv (s : State) : Prop where
  /-- Memory keeps its canonical form, with cells 0 to 65535 only (10_state.md R33). -/
  mem : Memory.wf s.mem
  /-- pc is in [0,65536] (10_state.md R25). -/
  pc : s.pc ≤ memWords
  /-- STACK_CAPACITY is unbounded or at least 1 (00_scope.md R13). -/
  cap : s.cap.wf = true
  /-- The stack is within STACK_CAPACITY (43_stack.md R83). -/
  stack : stackFits s.cap s.stack = true
  /-- There is a fault record exactly when the machine is Faulted (10_state.md R31). -/
  record : s.run = .faulted ↔ s.fault.isSome = true
  /-- The record is one some rule writes, at the pc where the machine stands (10_state.md R31). -/
  recordOk : ∀ r, s.fault = some r → r.wf = true ∧ r.addr = s.pc
  /-- The line buffer holds the end of one line (60_exceptions.md R126). -/
  inbuf : inbufOk s.inbuf = true
  /-- Every line IN gives is a line (60_exceptions.md R127). -/
  lines : ∀ l ∈ s.lines, lineOk l = true
  /-- The snapshot slot is empty or holds a save (60_exceptions.md R130, R132). -/
  snap : ∀ sn, s.snap = some sn → sn.Ok

/-! ## What is kept -/

/-- Every register reads as before. -/
def KeepsRegs (s t : State) : Prop :=
  ∀ j, t.getReg j = s.getReg j

/-- Every register but `d` reads as before. -/
def KeepsOtherRegs (d : RegIdx) (s t : State) : Prop :=
  ∀ j, j ≠ d → t.getReg j = s.getReg j

/-- Every memory cell holds what it held, `UNINIT` included. -/
def KeepsCells (s t : State) : Prop :=
  ∀ a, Memory.cell t.mem a = Memory.cell s.mem a

/-- Run state and fault record are as before: the instruction completed and the machine goes on. -/
def KeepsStatus (s t : State) : Prop :=
  t.run = s.run ∧ t.fault = s.fault

/-- The input side is as before: line buffer, snapshot slot, the lines IN has to give; and STACK_CAPACITY. -/
def KeepsInput (s t : State) : Prop :=
  t.inbuf = s.inbuf ∧ t.snap = s.snap ∧ t.lines = s.lines ∧ t.cap = s.cap

/-- An instruction of `len` words wrote the number `n` to register `d`, advanced pc and kept everything
else. -/
structure RegisterEffect (d : RegIdx) (n len : Nat) (s t : State) : Prop where
  result : (t.getReg d).toNat = n
  pc : t.pc = s.pc + len
  regs : KeepsOtherRegs d s t
  cells : KeepsCells s t
  stack : t.stack = s.stack
  status : KeepsStatus s t
  input : KeepsInput s t
  output : t.outlog = s.outlog

/-- An instruction set pc to `target`, the stack to `st`, and kept everything else. -/
structure ControlEffect (target : Nat) (st : List Value) (s t : State) : Prop where
  pc : t.pc = target
  stack : t.stack = st
  regs : KeepsRegs s t
  cells : KeepsCells s t
  status : KeepsStatus s t
  input : KeepsInput s t
  output : t.outlog = s.outlog

/-- The machine halted and everything else, pc included, is kept (41_system.md R79). -/
structure HaltEffect (s t : State) : Prop where
  run : t.run = .halted
  fault : t.fault = s.fault
  pc : t.pc = s.pc
  stack : t.stack = s.stack
  regs : KeepsRegs s t
  cells : KeepsCells s t
  input : KeepsInput s t
  output : t.outlog = s.outlog

/-- A fault was raised (60_exceptions.md R107): the run state and the record, and nothing else. -/
structure FaultEffect (opcode : Option Word) (kind : FaultKind) (info : FaultInfo) (s t : State) :
    Prop where
  run : t.run = .faulted
  record : t.fault = some { kind := kind, addr := s.pc, opcode := opcode, info := info }
  pc : t.pc = s.pc
  stack : t.stack = s.stack
  regs : KeepsRegs s t
  cells : KeepsCells s t
  input : KeepsInput s t
  output : t.outlog = s.outlog

/-! ## Several instructions -/

/-- The execute stages of a list of instructions, one after the other, up to the first outcome that is no
next state. -/
def execAll : List Instr → State → Result
  | [], s => .next s
  | i :: is, s =>
    match exec i s with
    | .next t => execAll is t
    | .fault r => .fault r
    | .refused r => .refused r

end Sys2Proof.Machine
end

