-- ==== Sys2Proof/Certificates/Slice0/Obligations.lean ====
section
/-! DEFINITION. The statements for the provers. Each docstring names the rule of spec/ it formalises. Operands
are `Operand` terms, so `.register d` is a destination that names register d, and a source `b` with
`resolve s b = some vb` is any literal or register whose value is `vb`. -/

open Sys2Proof Sys2Proof.Config Sys2Proof.Machine

/-! ## Reset and image -/

/-- 10_state.md R22 and R29: right after construction every register is 0 and the stack is empty, whatever
the image of at most 65536 words, the STACK_CAPACITY and the host's input. -/
def Obligations.BootZeroesRegistersAndEmptiesStack : Prop :=
  ∀ (image : List Word) (cap : StackCapacity) (lines : List Line), image.length ≤ 65536 →
    (∀ i, (State.boot image cap lines).getReg i = 0#15) ∧
    (State.boot image cap lines).stack = []

/-- 70_reset_and_hazards.md R139: the rest of the state right after construction. That cells past the image
are `UNINIT`, that pc is 0 and that there is a run state and a record are the spec's own decisions D3, D20
and D13. -/
def Obligations.BootLeavesResetValues : Prop :=
  ∀ (image : List Word) (cap : StackCapacity) (lines : List Line), image.length ≤ 65536 →
    (∀ k, Memory.cell (State.boot image cap lines).mem k = image[k]?) ∧
    (State.boot image cap lines).pc = 0 ∧
    (State.boot image cap lines).run = .running ∧
    (State.boot image cap lines).fault = none ∧
    (State.boot image cap lines).inbuf = [] ∧
    (State.boot image cap lines).snap = none ∧
    (State.boot image cap lines).outlog = []

/-- 70_reset_and_hazards.md R138 (the spec's own decision D19; D3 for the fault): the empty image is
accepted, and its first step faults. That `State.reset` is that machine, with an unbounded stack and no
line, is the model's choice (log entries 3, 4 and 7); the second clause holds for every STACK_CAPACITY and
host input. -/
def Obligations.EmptyImageFaultsAtFirstStep : Prop :=
  State.reset = State.boot [] .unbounded [] ∧
  ∀ (cap : StackCapacity) (lines : List Line), ∃ t,
    step (State.boot [] cap lines) = .next t ∧
    FaultEffect none .uninitialisedRead (.address 0) (State.boot [] cap lines) t

/-- 70_reset_and_hazards.md R137 and R138, 20_memory.md R40: a file of an even number of bytes, at most
131072, gives the little-endian words of its byte pairs; any other file gives no image (the spec's own
decision D19). -/
def Obligations.ImageIsLittleEndianPairs : Prop :=
  ∀ bytes : List Byte,
    (bytes.length % 2 = 0 ∧ bytes.length ≤ 131072 → ∃ image,
      assembleImage bytes = some image ∧ 2 * image.length = bytes.length ∧
      ∀ k (w : Word), image[k]? = some w → ∃ lo hi : Byte,
        bytes[2 * k]? = some lo ∧ bytes[2 * k + 1]? = some hi ∧
        w.toNat = lo.toNat + 256 * hi.toNat) ∧
    (bytes.length % 2 = 1 ∨ 131072 < bytes.length → assembleImage bytes = none)

/-! ## Encoding -/

/-- 30_encoding.md, whole: the decoder inverts the encoder on every well-formed instruction, whatever
words follow. -/
def Obligations.DecodeInvertsEncode : Prop :=
  ∀ (i : Instr) (rest : List Word), i.wf = true → decode (encode i ++ rest) = .ok (i, rest)

/-- 30_encoding.md, the other direction: what the decoder reads is well formed and its words are the words
read. -/
def Obligations.EncodeInvertsDecode : Prop :=
  ∀ (ws rest : List Word) (i : Instr), decode ws = .ok (i, rest) →
    i.wf = true ∧ encode i ++ rest = ws

/-- 30_encoding.md R60 (marked derived there): every 16-bit word is in exactly one row of the opcode
table; and R53: that row's length is 1 + the arity of the word. -/
def Obligations.EverySelectorInExactlyOneRow : Prop :=
  ∀ w : Word, ∃ r, opcodeTable.filter (fun r => r.covers w) = [r] ∧ r.length = 1 + arity w

/-- 30_encoding.md R53: the length is told by the selector alone, 1 plus the arity of R55 for selectors 0 to
21 (the list) and 1 for every other, and only missing words make decoding fail. -/
def Obligations.LengthFromSelectorAlone : Prop :=
  (List.range 22).map (fun n => arity (BitVec.ofNat 16 n)) =
    [0, 2, 1, 1, 3, 3, 1, 2, 2, 3, 3, 3, 3, 3, 2, 2, 2, 1, 0, 1, 1, 0] ∧
  ∀ (sel : Word) (rest : List Word),
    (arity sel ≤ rest.length → ∃ i, decode (sel :: rest) = .ok (i, rest.drop (arity sel)) ∧
      i.selector = sel ∧ i.length = 1 + arity sel) ∧
    (rest.length < arity sel →
      decode (sel :: rest) = .error (.missingOperand (rest.length + 1))) ∧
    (22 ≤ sel.toNat → arity sel = 0)

/-- 30_encoding.md R55, on words written out from its table. -/
def Obligations.DecodesWordsOfTheSpec : Prop :=
  decode [9#16, 32768#16, 4#16, 5#16] =
    .ok (.add (.register 0) (.literal 4#15) (.literal 5#15), []) ∧
  decode [1#16, 32771#16, 1234#16] = .ok (.set (.register 3) (.literal 1234#15), []) ∧
  decode [3#16, 32769#16] = .ok (.pop (.register 1), []) ∧
  decode [7#16, 32768#16, 40000#16] = .ok (.jt (.register 0) (.invalid 40000#16), []) ∧
  decode [16#16, 32768#16, 32769#16] = .ok (.wmem (.register 0) (.register 1), []) ∧
  decode [20#16, 32775#16] = .ok (.inp (.register 7), []) ∧
  decode [18#16] = .ok (.ret, []) ∧
  decode [32768#16, 7#16] = .ok (.unassigned 32768#16, [7#16])

/-- 30_encoding.md R57, with the classes of R54 and the register index of R58: the class of an operand word,
the value it resolves to and the register it names. -/
def Obligations.OperandWordsResolveByClass : Prop :=
  ∀ (s : State) (w : Word),
    (w.toNat ≤ 32767 → ∃ v : Value, Operand.ofWord w = .literal v ∧ v.toNat = w.toNat ∧
      resolve s (.ofWord w) = some v ∧ dest (.ofWord w) = none) ∧
    (32768 ≤ w.toNat ∧ w.toNat ≤ 32775 → ∃ i : RegIdx, Operand.ofWord w = .register i ∧
      i.val = w.toNat - 32768 ∧ resolve s (.ofWord w) = some (s.getReg i) ∧
      dest (.ofWord w) = some i) ∧
    (32776 ≤ w.toNat → Operand.ofWord w = .invalid w ∧ resolve s (.ofWord w) = none ∧
      dest (.ofWord w) = none)

/-! ## The step -/

/-- 40_engine.md R66 to R68: when the cells at pc hold the words of an instruction, the step of a Running
machine is what that instruction does. -/
def Obligations.StepRunsDecodedInstruction : Prop :=
  ∀ (s : State) (ws : List Word) (i : Instr), s.run = .running → decode ws = .ok (i, []) →
    s.pc + ws.length ≤ 65536 →
    (∀ k < ws.length, Memory.cell s.mem (s.pc + k) = ws[k]?) →
    step s = exec i s

/-- 40_engine.md R65, R76, R77 and 70_reset_and_hazards.md R146 (the spec's own decisions D15, D22): a
step exists exactly when the machine is Running and not waiting for a line. That a step that does not
exist is a named stop of the model is log entry 5. -/
def Obligations.StepExistsExactlyWhenRunningAndNotWaiting : Prop :=
  ∀ s : State,
    (s.condition = .running → ∃ t, step s = .next t) ∧
    (s.condition = .waiting → step s = .fault .awaitingLine) ∧
    (s.condition = .halted → step s = .fault .noStepHalted) ∧
    (s.condition = .faulted → step s = .fault .noStepFaulted)

/-- 40_engine.md R67, 20_memory.md R36 (the spec's own decisions D3, D4): the fault of the selector's
fetch has no opcode. -/
def Obligations.SelectorFetchFaults : Prop :=
  ∀ s : State, s.run = .running →
    (65536 ≤ s.pc → ∃ t, step s = .next t ∧
      FaultEffect none .addressOutOfRange (.address s.pc) s t) ∧
    (s.pc < 65536 → Memory.cell s.mem s.pc = none → ∃ t, step s = .next t ∧
      FaultEffect none .uninitialisedRead (.address s.pc) s t)

/-- 40_engine.md R69 (the spec's own decisions D7, D8): the first operand word that cannot be read stops
the step, with the selector as the record's opcode. -/
def Obligations.OperandFetchFaultsInOrder : Prop :=
  ∀ (s : State) (sel : Word) (k : Nat), s.run = .running → s.pc < 65536 →
    Memory.cell s.mem s.pc = some sel → 1 ≤ k → k ≤ arity sel →
    (∀ j, 1 ≤ j → j < k → s.pc + j < 65536 ∧ Memory.cell s.mem (s.pc + j) ≠ none) →
    (65536 ≤ s.pc + k → ∃ t, step s = .next t ∧
      FaultEffect (some sel) .addressOutOfRange (.address (s.pc + k)) s t) ∧
    (s.pc + k < 65536 → Memory.cell s.mem (s.pc + k) = none → ∃ t, step s = .next t ∧
      FaultEffect (some sel) .uninitialisedRead (.address (s.pc + k)) s t)

/-- 40_engine.md R70, 60_exceptions.md R110 and R112 (the spec's own decisions D5 to D8), for every
instruction: the first operand, in the order a, b, c, that fails validation raises its fault, whether or
not the instruction would use it, and before any fault of the instruction's own (R74). -/
def Obligations.FirstBadOperandFaults : Prop :=
  ∀ (i : Instr) (before after : List (Role × Operand)) (role : Role) (o : Operand) (s : State),
    i.operands = before ++ (role, o) :: after →
    (∀ p ∈ before, p.2.validIn p.1 = true) →
    ((∀ w, o = .invalid w → ∃ t, exec i s = .next t ∧
        FaultEffect (some i.selector) .invalidOperand (.operand (before.length + 1) w) s t) ∧
     (∀ v, o = .literal v → role = .dst → ∃ t, exec i s = .next t ∧
        FaultEffect (some i.selector) .invalidDestination
          (.operand (before.length + 1) (v.setWidth 16)) s t))

/-- 40_engine.md R75 (the spec's own decision D13): a step that faults changes the run state and the
record, which names pc, and nothing else; but a line taken from IN during the step stays taken. -/
def Obligations.FaultingStepIsPrecise : Prop :=
  ∀ s t : State, step s = .next t → t.run = .faulted →
    (∃ r, t.fault = some r ∧ r.addr = s.pc) ∧
    t.pc = s.pc ∧ t.stack = s.stack ∧ KeepsRegs s t ∧ KeepsCells s t ∧
    t.snap = s.snap ∧ t.inbuf = s.inbuf ∧ t.outlog = s.outlog ∧
    (t.lines = s.lines ∨ ∃ l, s.lines = l :: t.lines)

/-! ## System instructions and set -/

/-- 41_system.md R79; that pc stays is the spec's own decision D12. -/
def Obligations.HaltStopsAtItsAddress : Prop :=
  ∀ s : State, ∃ t, exec .halt s = .next t ∧ HaltEffect s t

/-- 41_system.md R80, R81, for the execute stage: noop and every unassigned selector only advance pc by 1.
-/
def Obligations.NoopAndUnassignedOnlyAdvance : Prop :=
  ∀ (s : State) (sel : Word),
    (∃ t, exec .noop s = .next t ∧ ControlEffect (s.pc + 1) s.stack s t) ∧
    (∃ t, exec (.unassigned sel) s = .next t ∧ ControlEffect (s.pc + 1) s.stack s t)

/-- 30_encoding.md R60, 41_system.md R81, for the whole step: a selector word of 21 or more at pc is one
no-op word, whatever the cells after it hold. -/
def Obligations.SelectorsFromTwentyOneStepByOneWord : Prop :=
  ∀ (s : State) (sel : Word), s.run = .running → s.pc < 65536 →
    Memory.cell s.mem s.pc = some sel → 21 ≤ sel.toNat →
    ∃ t, step s = .next t ∧ ControlEffect (s.pc + 1) s.stack s t

/-- 42_move.md R82. -/
def Obligations.SetWritesResolvedSource : Prop :=
  ∀ (d : RegIdx) (b : Operand) (vb : Value) (s : State), resolve s b = some vb →
    ∃ t, exec (.set (.register d) b) s = .next t ∧ RegisterEffect d vb.toNat 3 s t

/-! ## Stack -/

/-- 43_stack.md R83 (STACK_CAPACITY is the spec's own decision D11) and R85: a push below STACK_CAPACITY,
or with the unbounded one. -/
def Obligations.PushPutsValueOnTop : Prop :=
  ∀ (a : Operand) (va : Value) (s : State), resolve s a = some va →
    (s.cap = .unbounded ∨ ∃ c, s.cap = .entries c ∧ s.stack.length ≠ c) →
    ∃ t, exec (.push a) s = .next t ∧ ControlEffect (s.pc + 2) (s.stack ++ [va]) s t

/-- 60_exceptions.md R117 (the spec's own decision D11): `push` and `call` on a stack of STACK_CAPACITY
entries. The call's return address is in the value domain, because ReturnAddressOutOfDomain comes first
(40_engine.md R74). -/
def Obligations.FullStackOverflows : Prop :=
  ∀ (a : Operand) (va : Value) (c : Nat) (s : State), resolve s a = some va →
    s.cap = .entries c → s.stack.length = c →
    (∃ t, exec (.push a) s = .next t ∧ FaultEffect (some 2#16) .stackOverflow (.depth c) s t) ∧
    (s.pc + 2 ≤ 32767 → ∃ t, exec (.call a) s = .next t ∧
      FaultEffect (some 17#16) .stackOverflow (.depth c) s t)

/-- 43_stack.md R84 and R86: pop takes the top entry into register a. -/
def Obligations.PopTakesTop : Prop :=
  ∀ (d : RegIdx) (st : List Value) (v : Value) (s : State), s.stack = st ++ [v] →
    ∃ t, exec (.pop (.register d)) s = .next t ∧ t.getReg d = v ∧ t.stack = st ∧
      t.pc = s.pc + 2 ∧ KeepsOtherRegs d s t ∧ KeepsCells s t ∧ KeepsStatus s t ∧
      KeepsInput s t ∧ t.outlog = s.outlog

/-- 60_exceptions.md R108: `pop` on the empty stack faults, and `ret` there halts instead. -/
def Obligations.PopOnEmptyStackUnderflows : Prop :=
  ∀ s : State, s.stack = [] →
    (∀ d : RegIdx, ∃ t, exec (.pop (.register d)) s = .next t ∧
      FaultEffect (some 3#16) .stackUnderflow .none s t) ∧
    (∃ t, exec .ret s = .next t ∧ HaltEffect s t)

/-- 43_stack.md R84, the source's stack discipline: N pushes followed by N pops give the values back in
reverse order. The pops go to one register, so the statement looks after the last of k pops. -/
def Obligations.PushesThenPopsReverse : Prop :=
  ∀ (vs : List Value) (d : RegIdx) (k : Nat) (s : State), s.cap = .unbounded → 1 ≤ k →
    k ≤ vs.length →
    ∃ t, execAll (vs.map (fun v => .push (.literal v)) ++ List.replicate k (.pop (.register d))) s
        = .next t ∧
      some (t.getReg d) = vs.reverse[k - 1]? ∧
      t.stack = s.stack ++ vs.take (vs.length - k)

/-! ## ALU -/

/-- 44_alu.md R88 and R89. The destination may be one of the sources: they are read first. -/
def Obligations.EqAndGtWriteZeroOrOne : Prop :=
  ∀ (d : RegIdx) (b c : Operand) (vb vc : Value) (s : State),
    resolve s b = some vb → resolve s c = some vc →
    (∃ t, exec (.eq (.register d) b c) s = .next t ∧
      RegisterEffect d (if vb.toNat = vc.toNat then 1 else 0) 4 s t) ∧
    (∃ t, exec (.gt (.register d) b c) s = .next t ∧
      RegisterEffect d (if vb.toNat > vc.toNat then 1 else 0) 4 s t)

/-- 44_alu.md R90 and R91: the exact sum or product, reduced mod 32768. -/
def Obligations.AddAndMultReduceExactResult : Prop :=
  ∀ (d : RegIdx) (b c : Operand) (vb vc : Value) (s : State),
    resolve s b = some vb → resolve s c = some vc →
    (∃ t, exec (.add (.register d) b c) s = .next t ∧
      RegisterEffect d ((vb.toNat + vc.toNat) % 32768) 4 s t) ∧
    (∃ t, exec (.mult (.register d) b c) s = .next t ∧
      RegisterEffect d (vb.toNat * vc.toNat % 32768) 4 s t)

/-- 44_alu.md R92: the remainder, for c nonzero. -/
def Obligations.ModWritesRemainder : Prop :=
  ∀ (d : RegIdx) (b c : Operand) (vb vc : Value) (s : State),
    resolve s b = some vb → resolve s c = some vc → vc.toNat ≠ 0 →
    ∃ t, exec (.mod (.register d) b c) s = .next t ∧
      RegisterEffect d (vb.toNat % vc.toNat) 4 s t

/-- 60_exceptions.md R109: mod faults when its c operand resolves to 0, a literal or a register. -/
def Obligations.ModByZeroFaults : Prop :=
  ∀ (d : RegIdx) (b c : Operand) (vb vc : Value) (s : State),
    resolve s b = some vb → resolve s c = some vc → vc.toNat = 0 →
    ∃ t, exec (.mod (.register d) b c) s = .next t ∧
      FaultEffect (some 11#16) .divideByZero .none s t

/-- 44_alu.md R93, R94 and R95, bit by bit; `not` also as 32767 - b. -/
def Obligations.BitwiseInstructionsActOnEachBit : Prop :=
  ∀ (d : RegIdx) (b c : Operand) (vb vc : Value) (s : State),
    resolve s b = some vb → resolve s c = some vc →
    (∃ t, exec (.and (.register d) b c) s = .next t ∧
      RegisterEffect d (vb.toNat &&& vc.toNat) 4 s t) ∧
    (∃ t, exec (.or (.register d) b c) s = .next t ∧
      RegisterEffect d (vb.toNat ||| vc.toNat) 4 s t) ∧
    (∃ t, exec (.not (.register d) b) s = .next t ∧
      RegisterEffect d (vb.toNat ^^^ 32767) 3 s t ∧ (t.getReg d).toNat = 32767 - vb.toNat)

/-- 44_alu.md R95: `not` twice gives the value back, through any two registers. -/
def Obligations.NotTwiceRestoresValue : Prop :=
  ∀ (d e : RegIdx) (b : Operand) (vb : Value) (s : State), resolve s b = some vb →
    ∃ t, execAll [.not (.register d) b, .not (.register e) (.register d)] s = .next t ∧
      t.getReg e = vb ∧ t.pc = s.pc + 6

/-! ## Control transfer -/

/-- 45_control.md R97. -/
def Obligations.JmpSetsPc : Prop :=
  ∀ (a : Operand) (va : Value) (s : State), resolve s a = some va →
    ∃ t, exec (.jmp a) s = .next t ∧ ControlEffect va.toNat s.stack s t

/-- 45_control.md R98 and R99: the test is of the resolved value. -/
def Obligations.JtAndJfTestResolvedValue : Prop :=
  ∀ (a b : Operand) (va vb : Value) (s : State), resolve s a = some va → resolve s b = some vb →
    (∃ t, exec (.jt a b) s = .next t ∧
      ControlEffect (if va.toNat ≠ 0 then vb.toNat else s.pc + 3) s.stack s t) ∧
    (∃ t, exec (.jf a b) s = .next t ∧
      ControlEffect (if va.toNat = 0 then vb.toNat else s.pc + 3) s.stack s t)

/-- 45_control.md R100: call below the top of the value range, with room on the stack. -/
def Obligations.CallPushesReturnAddress : Prop :=
  ∀ (a : Operand) (va : Value) (s : State), resolve s a = some va → s.pc + 2 ≤ 32767 →
    (s.cap = .unbounded ∨ ∃ c, s.cap = .entries c ∧ s.stack.length ≠ c) →
    ∃ t r, exec (.call a) s = .next t ∧ r.toNat = s.pc + 2 ∧
      ControlEffect va.toNat (s.stack ++ [r]) s t

/-- 60_exceptions.md R116 (the spec's own decision D10): call at 32766 or above, whatever the stack. -/
def Obligations.CallNearTopFaults : Prop :=
  ∀ (a : Operand) (va : Value) (s : State), resolve s a = some va → 32766 ≤ s.pc →
    ∃ t, exec (.call a) s = .next t ∧
      FaultEffect (some 17#16) .returnAddressOutOfDomain (.returnAddress (s.pc + 2)) s t

/-- 45_control.md R101: ret pops its target, or halts on the empty stack, which is not a fault. That pc
stays at a halting ret is the spec's own decision D12. -/
def Obligations.RetPopsOrHalts : Prop :=
  ∀ s : State,
    (∀ (st : List Value) (v : Value), s.stack = st ++ [v] →
      ∃ t, exec .ret s = .next t ∧ ControlEffect v.toNat st s t) ∧
    (s.stack = [] → ∃ t, exec .ret s = .next t ∧ HaltEffect s t)

/-- 45_control.md R100 and R101, the source's property: call followed by ret resumes after the call with
the stack as before. -/
def Obligations.CallThenRetResumesAfterCall : Prop :=
  ∀ (a : Operand) (va : Value) (s : State), resolve s a = some va → s.pc + 2 ≤ 32767 →
    (s.cap = .unbounded ∨ ∃ c, s.cap = .entries c ∧ s.stack.length ≠ c) →
    ∃ t, execAll [.call a, .ret] s = .next t ∧ ControlEffect (s.pc + 2) s.stack s t

/-! ## Memory access -/

/-- 46_memory_access.md R103: rmem of a cell that holds a value. -/
def Obligations.RmemReadsCell : Prop :=
  ∀ (d : RegIdx) (b : Operand) (vb : Value) (m : Word) (s : State), resolve s b = some vb →
    Memory.cell s.mem vb.toNat = some m → m.toNat ≤ 32767 →
    ∃ t, exec (.rmem (.register d) b) s = .next t ∧ RegisterEffect d m.toNat 3 s t

/-- 46_memory_access.md R103, the faults of rmem (60_exceptions.md R113, R115; the spec's own decisions D3
and D9). -/
def Obligations.RmemFaultsOnNoValue : Prop :=
  ∀ (d : RegIdx) (b : Operand) (vb : Value) (s : State), resolve s b = some vb →
    (Memory.cell s.mem vb.toNat = none → ∃ t, exec (.rmem (.register d) b) s = .next t ∧
      FaultEffect (some 15#16) .uninitialisedRead (.address vb.toNat) s t) ∧
    (∀ m : Word, Memory.cell s.mem vb.toNat = some m → 32768 ≤ m.toNat →
      ∃ t, exec (.rmem (.register d) b) s = .next t ∧
        FaultEffect (some 15#16) .wordOutOfDomain (.cell vb.toNat m) s t)

/-- 46_memory_access.md R104 (20_memory.md R37): wmem stores at the address its first operand resolves to,
and every other cell is as before. -/
def Obligations.WmemWritesOneCell : Prop :=
  ∀ (a b : Operand) (va vb : Value) (s : State), resolve s a = some va → resolve s b = some vb →
    ∃ t m, exec (.wmem a b) s = .next t ∧
      Memory.cell t.mem (storeAddress va) = some m ∧ m.toNat = vb.toNat ∧
      (∀ x, x ≠ storeAddress va → Memory.cell t.mem x = Memory.cell s.mem x) ∧
      storeAddress va = va.toNat ∧
      t.pc = s.pc + 3 ∧ t.stack = s.stack ∧ KeepsRegs s t ∧ KeepsStatus s t ∧ KeepsInput s t ∧
      t.outlog = s.outlog

/-- 20_memory.md R49: a word written by wmem into the next instruction's selector is what the very next
step fetches: 0 halts there, a word of 21 or more is a no-op. -/
def Obligations.NextFetchSeesWmem : Prop :=
  ∀ (a b : Operand) (va vb : Value) (s : State), s.run = .running →
    resolve s a = some va → resolve s b = some vb → va.toNat = s.pc + 3 →
    ∃ t, exec (.wmem a b) s = .next t ∧ t.pc = s.pc + 3 ∧
      (vb.toNat = 0 → ∃ u, step t = .next u ∧ HaltEffect t u) ∧
      (21 ≤ vb.toNat → ∃ u, step t = .next u ∧ ControlEffect (s.pc + 4) s.stack t u)

/-- 46_memory_access.md R103 and R104: what wmem stored, rmem of the same address reads. -/
def Obligations.RmemReadsWhatWmemWrote : Prop :=
  ∀ (d : RegIdx) (a b : Operand) (va vb : Value) (s : State),
    resolve s a = some va → resolve s b = some vb →
    ∃ t, execAll [.wmem a b, .rmem (.register d) a] s = .next t ∧ t.getReg d = vb ∧
      t.pc = s.pc + 6

/-! ## Output and input -/

/-- 47_io.md R105 (60_exceptions.md R125): one byte, the value mod 256, at the end of OUT. -/
def Obligations.OutEmitsLowByte : Prop :=
  ∀ (a : Operand) (va : Value) (s : State), resolve s a = some va →
    ∃ t byte, exec (.out a) s = .next t ∧ t.outlog = s.outlog ++ [byte] ∧
      byte.toNat = va.toNat % 256 ∧ t.pc = s.pc + 2 ∧ t.stack = s.stack ∧ KeepsRegs s t ∧
      KeepsCells s t ∧ KeepsStatus s t ∧ KeepsInput s t

/-- 47_io.md R106: with bytes in the line buffer, `in` gives the first and asks for no line. -/
def Obligations.InGivesBufferedByte : Prop :=
  ∀ (d : RegIdx) (b : Byte) (rest : List Byte) (s : State), s.inbuf = b :: rest →
    ∃ t, exec (.inp (.register d)) s = .next t ∧ (t.getReg d).toNat = b.toNat ∧
      t.inbuf = rest ∧ t.pc = s.pc + 2 ∧ t.lines = s.lines ∧ t.snap = s.snap ∧ t.cap = s.cap ∧
      t.stack = s.stack ∧ KeepsOtherRegs d s t ∧ KeepsCells s t ∧ KeepsStatus s t ∧
      t.outlog = s.outlog

/-- 47_io.md R106 and 60_exceptions.md R126 (the spec's own decision D18): with the buffer empty and a
line that is neither a save nor a load, `in` refills the buffer with the line and the byte 10 and gives
the first byte. -/
def Obligations.InTakesOrdinaryLine : Prop :=
  ∀ (d : RegIdx) (l : Line) (ls : List Line) (s : State), s.inbuf = [] → s.lines = l :: ls →
    startsCI l saveWord = false → startsCI l loadWord = false →
    ∃ t b, exec (.inp (.register d)) s = .next t ∧ b :: t.inbuf = l ++ [10#8] ∧
      (t.getReg d).toNat = b.toNat ∧ t.lines = ls ∧ t.pc = s.pc + 2 ∧
      t.snap = s.snap ∧ t.cap = s.cap ∧ t.stack = s.stack ∧ KeepsOtherRegs d s t ∧
      KeepsCells s t ∧ KeepsStatus s t ∧ t.outlog = s.outlog

/-- 60_exceptions.md R126: a line is given to the program whole, ending with 10, one byte per `in`, before
the next line is asked for. After k + 1 times `in`, the register holds the k-th byte. -/
def Obligations.LineIsGivenWhole : Prop :=
  ∀ (d : RegIdx) (l : Line) (ls : List Line) (k : Nat) (s : State), s.inbuf = [] →
    s.lines = l :: ls → startsCI l saveWord = false → startsCI l loadWord = false →
    k ≤ l.length →
    ∃ t, execAll (List.replicate (k + 1) (.inp (.register d))) s = .next t ∧
      some (t.getReg d).toNat = (l ++ [10#8])[k]?.map BitVec.toNat ∧
      t.inbuf = (l ++ [10#8]).drop (k + 1) ∧ t.lines = ls ∧ t.pc = s.pc + 2 * (k + 1)

/-- 60_exceptions.md R130, 47_io.md R106 (the spec's own decision D17): a save line copies memory, pc and
registers; pc is not advanced and nothing else changes but the line taken. -/
def Obligations.SaveLineFillsSlot : Prop :=
  ∀ (d : RegIdx) (l : Line) (ls : List Line) (s : State), s.inbuf = [] → s.lines = l :: ls →
    startsCI l saveWord = true →
    ∃ t, exec (.inp (.register d)) s = .next t ∧
      t.snap = some { mem := s.mem, pc := s.pc, regs := s.regs } ∧ t.lines = ls ∧
      t.pc = s.pc ∧ t.inbuf = [] ∧ t.cap = s.cap ∧ t.stack = s.stack ∧ KeepsRegs s t ∧
      KeepsCells s t ∧ KeepsStatus s t ∧ t.outlog = s.outlog

/-- 60_exceptions.md R131 (the spec's own decision D17): a load line restores memory, pc and registers,
and leaves the stack, the buffer, OUT and the slot. -/
def Obligations.LoadLineRestoresSnapshot : Prop :=
  ∀ (d : RegIdx) (l : Line) (ls : List Line) (sn : Snapshot) (s : State), s.inbuf = [] →
    s.lines = l :: ls → startsCI l loadWord = true → s.snap = some sn →
    ∃ t, exec (.inp (.register d)) s = .next t ∧
      t.mem = sn.mem ∧ t.pc = sn.pc ∧ t.regs = sn.regs ∧ t.snap = some sn ∧ t.lines = ls ∧
      t.inbuf = [] ∧ t.cap = s.cap ∧ t.stack = s.stack ∧ KeepsStatus s t ∧
      t.outlog = s.outlog

/-- 60_exceptions.md R111: a load line with the slot empty faults NoSnapshot, and the line is consumed. -/
def Obligations.LoadWithoutSnapshotFaults : Prop :=
  ∀ (d : RegIdx) (l : Line) (ls : List Line) (s : State), s.inbuf = [] →
    s.lines = l :: ls → startsCI l loadWord = true → s.snap = none →
    ∃ t, exec (.inp (.register d)) s = .next t ∧ t.run = .faulted ∧
      t.fault = some { kind := .noSnapshot, addr := s.pc, opcode := some 20#16, info := .none } ∧
      t.lines = ls ∧ t.pc = s.pc ∧ t.inbuf = [] ∧ t.snap = none ∧ t.cap = s.cap ∧
      t.stack = s.stack ∧ KeepsRegs s t ∧ KeepsCells s t ∧ t.outlog = s.outlog

/-- 60_exceptions.md R129 (the spec's own decision D16): the interception test looks at a prefix, with
letters A to Z folded. -/
def Obligations.InterceptionTestsFoldedPrefix : Prop :=
  (∀ (l : Line) (p : List Byte), startsCI l p = true ↔
    p.length ≤ l.length ∧ ∀ i, i < p.length → l[i]?.map foldByte = p[i]?) ∧
  (∀ b : Byte, (foldByte b).toNat =
    if 65 ≤ b.toNat ∧ b.toNat ≤ 90 then b.toNat + 32 else b.toNat)

/-- 40_engine.md R77 and 60_exceptions.md R135 (the model's `lines` and its stop are log entries 4 and 5):
a waiting machine has no step, a line from IN ends the wait, and the step that then happens is one from
the same state with that line. -/
def Obligations.LineEndsTheWait : Prop :=
  ∀ (s : State) (l : Line), s.condition = .waiting →
    step s = .fault .awaitingLine ∧ ∃ t, step (s.deliverLine l) = .next t ∧ t.lines = []

/-! ## The whole machine -/

/-- 10_state.md, 60_exceptions.md R126 to R132: the invariant holds right after reset, for every image
that fits, every STACK_CAPACITY the spec allows and every host input. -/
def Obligations.ResetMeetsInvariant : Prop :=
  State.reset.Inv ∧
  ∀ (image : List Word) (cap : StackCapacity) (lines : List Line), image.length ≤ 65536 →
    cap.wf = true → (∀ l ∈ lines, lineOk l = true) → (State.boot image cap lines).Inv

/-- The same rules: every step keeps the invariant, and so does a line from IN. -/
def Obligations.StepKeepsInvariant : Prop :=
  (∀ s t : State, s.Inv → step s = .next t → t.Inv) ∧
  (∀ (s : State) (l : Line), s.Inv → lineOk l = true → (s.deliverLine l).Inv)

/-- 10_state.md R26, for every instruction whose operands pass validation: where pc is after a next state.
-/
def Obligations.PcAfterEachInstruction : Prop :=
  ∀ (i : Instr) (s t : State), s.run = .running → exec i s = .next t →
    (t.run ≠ .running → t.pc = s.pc) ∧
    (t.run = .running →
      (match i with
        | .jmp a | .call a => ∃ v, resolve s a = some v ∧ t.pc = v.toNat
        | .jt a b => ∃ va vb, resolve s a = some va ∧ resolve s b = some vb ∧
            t.pc = if va.toNat ≠ 0 then vb.toNat else s.pc + 3
        | .jf a b => ∃ va vb, resolve s a = some va ∧ resolve s b = some vb ∧
            t.pc = if va.toNat = 0 then vb.toNat else s.pc + 3
        | .ret => ∃ st v, s.stack = st ++ [v] ∧ t.pc = v.toNat
        | .inp _ => t.pc = s.pc + 2 ∨
            (∃ l ls, s.inbuf = [] ∧ s.lines = l :: ls ∧ startsCI l saveWord = true ∧ t.pc = s.pc) ∨
            (∃ l ls sn, s.inbuf = [] ∧ s.lines = l :: ls ∧ startsCI l loadWord = true ∧
              s.snap = some sn ∧ t.pc = sn.pc)
        | .halt => False
        | _ => t.pc = s.pc + i.length))

/-- 10_state.md R21: a register is written only through the destination operand of the listed
instructions, and by a snapshot load. -/
def Obligations.RegistersWrittenOnlyByDestination : Prop :=
  ∀ (i : Instr) (s t : State) (j : RegIdx), exec i s = .next t → t.getReg j ≠ s.getReg j →
    (∃ o rest, i.operands = (.dst, o) :: rest ∧ dest o = some j) ∨
    (∃ o l ls sn, i = .inp o ∧ s.inbuf = [] ∧ s.lines = l :: ls ∧ startsCI l loadWord = true ∧
      s.snap = some sn ∧ t.getReg j = sn.regs[j.val])

/-- 10_state.md R28: the stack grows and shrinks, by one entry at the top, only by push, call, pop and
ret. -/
def Obligations.StackChangedOnlyByFour : Prop :=
  ∀ (i : Instr) (s t : State), exec i s = .next t → t.stack ≠ s.stack →
    (((∃ a, i = .push a) ∨ (∃ a, i = .call a)) ∧ ∃ v, t.stack = s.stack ++ [v]) ∨
    (((∃ a, i = .pop a) ∨ i = .ret) ∧ ∃ v, s.stack = t.stack ++ [v])

/-- 20_memory.md R37 and R38: a cell changes only by wmem, which then writes a word below 32768 to a cell
below 32768, or by a snapshot load. -/
def Obligations.CellsWrittenOnlyByWmemOrLoad : Prop :=
  ∀ (i : Instr) (s t : State) (x : Nat), exec i s = .next t →
    Memory.cell t.mem x ≠ Memory.cell s.mem x →
    (∃ a b va w, i = .wmem a b ∧ resolve s a = some va ∧ x = storeAddress va ∧ x ≤ 32767 ∧
      Memory.cell t.mem x = some w ∧ w.toNat ≤ 32767) ∨
    (∃ o l ls sn, i = .inp o ∧ s.inbuf = [] ∧ s.lines = l :: ls ∧ startsCI l loadWord = true ∧
      s.snap = some sn ∧ t.mem = sn.mem)

/-- 20_memory.md R39: cells 32768 to 65535 are never written after reset. `u` is what they hold; a saved
memory holds the same there. -/
def Obligations.UpperCellsNeverWritten : Prop :=
  ∀ (u : Nat → Option Word) (s t : State),
    (∀ x, 32768 ≤ x → Memory.cell s.mem x = u x) →
    (∀ sn, s.snap = some sn → ∀ x, 32768 ≤ x → Memory.cell sn.mem x = u x) →
    step s = .next t →
    (∀ x, 32768 ≤ x → Memory.cell t.mem x = u x) ∧
    (∀ sn, t.snap = some sn → ∀ x, 32768 ≤ x → Memory.cell sn.mem x = u x)

/-- 10_state.md R30 and R31: from Running, the machine becomes Halted only by halt and by ret on the empty
stack, with no record written; and it becomes Faulted exactly when a record is written. -/
def Obligations.RunStateWrittenOnlyByHaltRetAndFaults : Prop :=
  ∀ (i : Instr) (s t : State), s.run = .running → s.fault = none → exec i s = .next t →
    (t.run = .halted → (i = .halt ∨ i = .ret ∧ s.stack = []) ∧ t.fault = none) ∧
    (t.run = .running → t.fault = none) ∧
    (t.run = .faulted → ∃ r, t.fault = some r ∧ r.addr = s.pc ∧ r.opcode = some i.selector)

/-- 00_scope.md R7 and 10_state.md R34: OUT grows only by out, by one byte; the line buffer, the snapshot
slot and the lines of IN change only by in; STACK_CAPACITY never changes. -/
def Obligations.DevicesChangedOnlyByOutAndIn : Prop :=
  ∀ (i : Instr) (s t : State), exec i s = .next t →
    (t.outlog ≠ s.outlog → (∃ a, i = .out a) ∧ ∃ b, t.outlog = s.outlog ++ [b]) ∧
    (t.inbuf ≠ s.inbuf ∨ t.snap ≠ s.snap ∨ t.lines ≠ s.lines → ∃ a, i = .inp a) ∧
    t.cap = s.cap
end

