-- ==== Sys2Proof/Laws/Decode.lean ====
section
/-! SUPPORT. Operand words and the shape of decoded instructions. -/

namespace Sys2Proof

theorem Operand.ofWord_literal {w : Word} (h : w.toNat ≤ 32767) :
    Operand.ofWord w = .literal (w.setWidth 15) := by
  rw [Operand.ofWord, if_pos h]

theorem Operand.ofWord_register {w : Word} (h₁ : 32768 ≤ w.toNat) (h₂ : w.toNat ≤ 32775) :
    Operand.ofWord w = .register (Fin.ofNat 8 (w.toNat - 32768)) := by
  rw [Operand.ofWord, if_neg (by omega), if_pos h₂]

theorem Operand.ofWord_invalid {w : Word} (h : 32776 ≤ w.toNat) : Operand.ofWord w = .invalid w := by
  rw [Operand.ofWord, if_neg (by omega), if_neg (by omega)]

/-- Every operand word stands for a well-formed operand. -/
@[simp] theorem Operand.wf_ofWord (w : Word) : (Operand.ofWord w).wf = true := by
  by_cases h₁ : w.toNat ≤ 32767
  · rw [Operand.ofWord_literal h₁, Operand.wf]
  · by_cases h₂ : w.toNat ≤ 32775
    · rw [Operand.ofWord_register (by omega) h₂, Operand.wf]
    · simp only [Operand.ofWord_invalid (w := w) (by omega), Operand.wf, decide_eq_true_eq]
      omega

/-- An operand word is the word of the operand it stands for. -/
@[simp] theorem Operand.toWord_ofWord (w : Word) : (Operand.ofWord w).toWord = w := by
  have hw := w.isLt
  apply BitVec.eq_of_toNat_eq
  by_cases h₁ : w.toNat ≤ 32767
  · simp only [Operand.ofWord_literal h₁, Operand.toWord, BitVec.toNat_setWidth]
    omega
  · by_cases h₂ : w.toNat ≤ 32775
    · simp only [Operand.ofWord_register (w := w) (by omega) h₂, Operand.toWord, BitVec.toNat_ofNat,
        Fin.val_ofNat]
      omega
    · simp [Operand.ofWord_invalid (w := w) (by omega), Operand.toWord]

/-- The word of register i is 32768 + i (30_encoding.md R54). -/
theorem Operand.toNat_toWord_register (i : RegIdx) : (Operand.register i).toWord.toNat = 32768 + i.val := by
  have hi := i.isLt
  rw [Operand.toWord, BitVec.toNat_ofNat, Nat.mod_eq_of_lt (by omega)]

/-- A well-formed operand is the one its word stands for. -/
theorem Operand.ofWord_toWord {o : Operand} (h : o.wf = true) : Operand.ofWord o.toWord = o := by
  cases o with
  | literal v =>
    have hv := v.isLt
    have hw : (v.setWidth 16).toNat = v.toNat := by
      rw [BitVec.toNat_setWidth, Nat.mod_eq_of_lt (by omega)]
    rw [Operand.toWord, Operand.ofWord_literal (by omega)]
    congr 1
    apply BitVec.eq_of_toNat_eq
    rw [BitVec.toNat_setWidth, hw, Nat.mod_eq_of_lt hv]
  | register i =>
    have hw := Operand.toNat_toWord_register i
    have hi := i.isLt
    generalize (Operand.register i).toWord = w at hw
    rw [Operand.ofWord_register (by omega) (by omega), hw, Nat.add_sub_cancel_left]
    congr 1
    apply Fin.ext
    rw [Fin.val_ofNat, Nat.mod_eq_of_lt hi]
  | invalid w =>
    rw [Operand.toWord]
    exact Operand.ofWord_invalid (by simpa [Operand.wf] using h)

/-! ## Formats -/

theorem decodeF1_ok {ε : Type} {rd : Nat → Except ε Word} {mk : Operand → Instr} {i : Instr} :
    decodeF1 rd mk = .ok i ↔ ∃ a, rd 1 = .ok a ∧ i = mk (.ofWord a) := by
  unfold decodeF1
  cases rd 1 <;> simp [eq_comm]

theorem decodeF2_ok {ε : Type} {rd : Nat → Except ε Word} {mk : Operand → Operand → Instr} {i : Instr} :
    decodeF2 rd mk = .ok i ↔
      ∃ a b, rd 1 = .ok a ∧ rd 2 = .ok b ∧ i = mk (.ofWord a) (.ofWord b) := by
  unfold decodeF2
  cases rd 1 <;> cases rd 2 <;> simp [eq_comm]

theorem decodeF3_ok {ε : Type} {rd : Nat → Except ε Word} {mk : Operand → Operand → Operand → Instr}
    {i : Instr} :
    decodeF3 rd mk = .ok i ↔
      ∃ a b c, rd 1 = .ok a ∧ rd 2 = .ok b ∧ rd 3 = .ok c ∧
        i = mk (.ofWord a) (.ofWord b) (.ofWord c) := by
  unfold decodeF3
  cases rd 1 <;> cases rd 2 <;> cases rd 3 <;> simp [eq_comm]

/-- A selector of 21 or more decodes with no operand word read (40_engine.md R66). -/
theorem decodeOperands_ge_22 {ε : Type} {sel : Word} (h : 22 ≤ sel.toNat) (rd : Nat → Except ε Word) :
    decodeOperands sel rd = .ok (.unassigned sel) := by
  unfold decodeOperands
  split <;> first | omega | rfl

end Sys2Proof
end

