-- ==== Sys2Proof/Laws/State.lean ====
section
/-! SUPPORT. One lemma per field of State per update: what each update writes and that it keeps the rest.
With them no proof unfolds an update. Then the register file: a read after a write. -/

namespace Sys2Proof.Machine

variable (s : State)

/-! ## setReg -/

@[simp] theorem State.setReg_mem (i : RegIdx) (v : Value) :
    (s.setReg i v).mem = s.mem := rfl
@[simp] theorem State.setReg_regs (i : RegIdx) (v : Value) :
    (s.setReg i v).regs = s.regs.set i.val v := rfl
@[simp] theorem State.setReg_stack (i : RegIdx) (v : Value) :
    (s.setReg i v).stack = s.stack := rfl
@[simp] theorem State.setReg_pc (i : RegIdx) (v : Value) :
    (s.setReg i v).pc = s.pc := rfl
@[simp] theorem State.setReg_run (i : RegIdx) (v : Value) :
    (s.setReg i v).run = s.run := rfl
@[simp] theorem State.setReg_fault (i : RegIdx) (v : Value) :
    (s.setReg i v).fault = s.fault := rfl
@[simp] theorem State.setReg_inbuf (i : RegIdx) (v : Value) :
    (s.setReg i v).inbuf = s.inbuf := rfl
@[simp] theorem State.setReg_snap (i : RegIdx) (v : Value) :
    (s.setReg i v).snap = s.snap := rfl
@[simp] theorem State.setReg_outlog (i : RegIdx) (v : Value) :
    (s.setReg i v).outlog = s.outlog := rfl
@[simp] theorem State.setReg_cap (i : RegIdx) (v : Value) :
    (s.setReg i v).cap = s.cap := rfl
@[simp] theorem State.setReg_lines (i : RegIdx) (v : Value) :
    (s.setReg i v).lines = s.lines := rfl

/-! ## setPc -/

@[simp] theorem State.setPc_mem (n : Nat) :
    (s.setPc n).mem = s.mem := rfl
@[simp] theorem State.setPc_regs (n : Nat) :
    (s.setPc n).regs = s.regs := rfl
@[simp] theorem State.setPc_stack (n : Nat) :
    (s.setPc n).stack = s.stack := rfl
@[simp] theorem State.setPc_pc (n : Nat) :
    (s.setPc n).pc = n := rfl
@[simp] theorem State.setPc_run (n : Nat) :
    (s.setPc n).run = s.run := rfl
@[simp] theorem State.setPc_fault (n : Nat) :
    (s.setPc n).fault = s.fault := rfl
@[simp] theorem State.setPc_inbuf (n : Nat) :
    (s.setPc n).inbuf = s.inbuf := rfl
@[simp] theorem State.setPc_snap (n : Nat) :
    (s.setPc n).snap = s.snap := rfl
@[simp] theorem State.setPc_outlog (n : Nat) :
    (s.setPc n).outlog = s.outlog := rfl
@[simp] theorem State.setPc_cap (n : Nat) :
    (s.setPc n).cap = s.cap := rfl
@[simp] theorem State.setPc_lines (n : Nat) :
    (s.setPc n).lines = s.lines := rfl

/-! ## advance -/

@[simp] theorem State.advance_mem (n : Nat) :
    (s.advance n).mem = s.mem := rfl
@[simp] theorem State.advance_regs (n : Nat) :
    (s.advance n).regs = s.regs := rfl
@[simp] theorem State.advance_stack (n : Nat) :
    (s.advance n).stack = s.stack := rfl
@[simp] theorem State.advance_pc (n : Nat) :
    (s.advance n).pc = s.pc + n := rfl
@[simp] theorem State.advance_run (n : Nat) :
    (s.advance n).run = s.run := rfl
@[simp] theorem State.advance_fault (n : Nat) :
    (s.advance n).fault = s.fault := rfl
@[simp] theorem State.advance_inbuf (n : Nat) :
    (s.advance n).inbuf = s.inbuf := rfl
@[simp] theorem State.advance_snap (n : Nat) :
    (s.advance n).snap = s.snap := rfl
@[simp] theorem State.advance_outlog (n : Nat) :
    (s.advance n).outlog = s.outlog := rfl
@[simp] theorem State.advance_cap (n : Nat) :
    (s.advance n).cap = s.cap := rfl
@[simp] theorem State.advance_lines (n : Nat) :
    (s.advance n).lines = s.lines := rfl

/-! ## memWrite -/

@[simp] theorem State.memWrite_mem (a : Nat) (w : Word) :
    (s.memWrite a w).mem = Memory.write s.mem a w := rfl
@[simp] theorem State.memWrite_regs (a : Nat) (w : Word) :
    (s.memWrite a w).regs = s.regs := rfl
@[simp] theorem State.memWrite_stack (a : Nat) (w : Word) :
    (s.memWrite a w).stack = s.stack := rfl
@[simp] theorem State.memWrite_pc (a : Nat) (w : Word) :
    (s.memWrite a w).pc = s.pc := rfl
@[simp] theorem State.memWrite_run (a : Nat) (w : Word) :
    (s.memWrite a w).run = s.run := rfl
@[simp] theorem State.memWrite_fault (a : Nat) (w : Word) :
    (s.memWrite a w).fault = s.fault := rfl
@[simp] theorem State.memWrite_inbuf (a : Nat) (w : Word) :
    (s.memWrite a w).inbuf = s.inbuf := rfl
@[simp] theorem State.memWrite_snap (a : Nat) (w : Word) :
    (s.memWrite a w).snap = s.snap := rfl
@[simp] theorem State.memWrite_outlog (a : Nat) (w : Word) :
    (s.memWrite a w).outlog = s.outlog := rfl
@[simp] theorem State.memWrite_cap (a : Nat) (w : Word) :
    (s.memWrite a w).cap = s.cap := rfl
@[simp] theorem State.memWrite_lines (a : Nat) (w : Word) :
    (s.memWrite a w).lines = s.lines := rfl

/-! ## halt -/

@[simp] theorem State.halt_mem :
    s.halt.mem = s.mem := rfl
@[simp] theorem State.halt_regs :
    s.halt.regs = s.regs := rfl
@[simp] theorem State.halt_stack :
    s.halt.stack = s.stack := rfl
@[simp] theorem State.halt_pc :
    s.halt.pc = s.pc := rfl
@[simp] theorem State.halt_run :
    s.halt.run = .halted := rfl
@[simp] theorem State.halt_fault :
    s.halt.fault = s.fault := rfl
@[simp] theorem State.halt_inbuf :
    s.halt.inbuf = s.inbuf := rfl
@[simp] theorem State.halt_snap :
    s.halt.snap = s.snap := rfl
@[simp] theorem State.halt_outlog :
    s.halt.outlog = s.outlog := rfl
@[simp] theorem State.halt_cap :
    s.halt.cap = s.cap := rfl
@[simp] theorem State.halt_lines :
    s.halt.lines = s.lines := rfl

/-! ## raise -/

@[simp] theorem State.raise_mem (o : Option Word) (c : Cause) :
    (s.raise o c).mem = s.mem := rfl
@[simp] theorem State.raise_regs (o : Option Word) (c : Cause) :
    (s.raise o c).regs = s.regs := rfl
@[simp] theorem State.raise_stack (o : Option Word) (c : Cause) :
    (s.raise o c).stack = s.stack := rfl
@[simp] theorem State.raise_pc (o : Option Word) (c : Cause) :
    (s.raise o c).pc = s.pc := rfl
@[simp] theorem State.raise_run (o : Option Word) (c : Cause) :
    (s.raise o c).run = .faulted := rfl
@[simp] theorem State.raise_fault (o : Option Word) (c : Cause) :
    (s.raise o c).fault = some ⟨c.kind, s.pc, o, c.info⟩ := rfl
@[simp] theorem State.raise_inbuf (o : Option Word) (c : Cause) :
    (s.raise o c).inbuf = s.inbuf := rfl
@[simp] theorem State.raise_snap (o : Option Word) (c : Cause) :
    (s.raise o c).snap = s.snap := rfl
@[simp] theorem State.raise_outlog (o : Option Word) (c : Cause) :
    (s.raise o c).outlog = s.outlog := rfl
@[simp] theorem State.raise_cap (o : Option Word) (c : Cause) :
    (s.raise o c).cap = s.cap := rfl
@[simp] theorem State.raise_lines (o : Option Word) (c : Cause) :
    (s.raise o c).lines = s.lines := rfl

/-! ## pushed -/

@[simp] theorem State.pushed_mem (v : Value) :
    (s.pushed v).mem = s.mem := rfl
@[simp] theorem State.pushed_regs (v : Value) :
    (s.pushed v).regs = s.regs := rfl
@[simp] theorem State.pushed_stack (v : Value) :
    (s.pushed v).stack = s.stack ++ [v] := rfl
@[simp] theorem State.pushed_pc (v : Value) :
    (s.pushed v).pc = s.pc := rfl
@[simp] theorem State.pushed_run (v : Value) :
    (s.pushed v).run = s.run := rfl
@[simp] theorem State.pushed_fault (v : Value) :
    (s.pushed v).fault = s.fault := rfl
@[simp] theorem State.pushed_inbuf (v : Value) :
    (s.pushed v).inbuf = s.inbuf := rfl
@[simp] theorem State.pushed_snap (v : Value) :
    (s.pushed v).snap = s.snap := rfl
@[simp] theorem State.pushed_outlog (v : Value) :
    (s.pushed v).outlog = s.outlog := rfl
@[simp] theorem State.pushed_cap (v : Value) :
    (s.pushed v).cap = s.cap := rfl
@[simp] theorem State.pushed_lines (v : Value) :
    (s.pushed v).lines = s.lines := rfl

/-! ## popped -/

@[simp] theorem State.popped_mem :
    s.popped.mem = s.mem := rfl
@[simp] theorem State.popped_regs :
    s.popped.regs = s.regs := rfl
@[simp] theorem State.popped_stack :
    s.popped.stack = s.stack.dropLast := rfl
@[simp] theorem State.popped_pc :
    s.popped.pc = s.pc := rfl
@[simp] theorem State.popped_run :
    s.popped.run = s.run := rfl
@[simp] theorem State.popped_fault :
    s.popped.fault = s.fault := rfl
@[simp] theorem State.popped_inbuf :
    s.popped.inbuf = s.inbuf := rfl
@[simp] theorem State.popped_snap :
    s.popped.snap = s.snap := rfl
@[simp] theorem State.popped_outlog :
    s.popped.outlog = s.outlog := rfl
@[simp] theorem State.popped_cap :
    s.popped.cap = s.cap := rfl
@[simp] theorem State.popped_lines :
    s.popped.lines = s.lines := rfl

/-! ## emit -/

@[simp] theorem State.emit_mem (b : Byte) :
    (s.emit b).mem = s.mem := rfl
@[simp] theorem State.emit_regs (b : Byte) :
    (s.emit b).regs = s.regs := rfl
@[simp] theorem State.emit_stack (b : Byte) :
    (s.emit b).stack = s.stack := rfl
@[simp] theorem State.emit_pc (b : Byte) :
    (s.emit b).pc = s.pc := rfl
@[simp] theorem State.emit_run (b : Byte) :
    (s.emit b).run = s.run := rfl
@[simp] theorem State.emit_fault (b : Byte) :
    (s.emit b).fault = s.fault := rfl
@[simp] theorem State.emit_inbuf (b : Byte) :
    (s.emit b).inbuf = s.inbuf := rfl
@[simp] theorem State.emit_snap (b : Byte) :
    (s.emit b).snap = s.snap := rfl
@[simp] theorem State.emit_outlog (b : Byte) :
    (s.emit b).outlog = s.outlog ++ [b] := rfl
@[simp] theorem State.emit_cap (b : Byte) :
    (s.emit b).cap = s.cap := rfl
@[simp] theorem State.emit_lines (b : Byte) :
    (s.emit b).lines = s.lines := rfl

/-! ## saveSnapshot -/

@[simp] theorem State.saveSnapshot_mem :
    s.saveSnapshot.mem = s.mem := rfl
@[simp] theorem State.saveSnapshot_regs :
    s.saveSnapshot.regs = s.regs := rfl
@[simp] theorem State.saveSnapshot_stack :
    s.saveSnapshot.stack = s.stack := rfl
@[simp] theorem State.saveSnapshot_pc :
    s.saveSnapshot.pc = s.pc := rfl
@[simp] theorem State.saveSnapshot_run :
    s.saveSnapshot.run = s.run := rfl
@[simp] theorem State.saveSnapshot_fault :
    s.saveSnapshot.fault = s.fault := rfl
@[simp] theorem State.saveSnapshot_inbuf :
    s.saveSnapshot.inbuf = s.inbuf := rfl
@[simp] theorem State.saveSnapshot_snap :
    s.saveSnapshot.snap = some ⟨s.mem, s.pc, s.regs⟩ := rfl
@[simp] theorem State.saveSnapshot_outlog :
    s.saveSnapshot.outlog = s.outlog := rfl
@[simp] theorem State.saveSnapshot_cap :
    s.saveSnapshot.cap = s.cap := rfl
@[simp] theorem State.saveSnapshot_lines :
    s.saveSnapshot.lines = s.lines := rfl

/-! ## restore -/

@[simp] theorem State.restore_mem (sn : Snapshot) :
    (s.restore sn).mem = sn.mem := rfl
@[simp] theorem State.restore_regs (sn : Snapshot) :
    (s.restore sn).regs = sn.regs := rfl
@[simp] theorem State.restore_stack (sn : Snapshot) :
    (s.restore sn).stack = s.stack := rfl
@[simp] theorem State.restore_pc (sn : Snapshot) :
    (s.restore sn).pc = sn.pc := rfl
@[simp] theorem State.restore_run (sn : Snapshot) :
    (s.restore sn).run = s.run := rfl
@[simp] theorem State.restore_fault (sn : Snapshot) :
    (s.restore sn).fault = s.fault := rfl
@[simp] theorem State.restore_inbuf (sn : Snapshot) :
    (s.restore sn).inbuf = s.inbuf := rfl
@[simp] theorem State.restore_snap (sn : Snapshot) :
    (s.restore sn).snap = s.snap := rfl
@[simp] theorem State.restore_outlog (sn : Snapshot) :
    (s.restore sn).outlog = s.outlog := rfl
@[simp] theorem State.restore_cap (sn : Snapshot) :
    (s.restore sn).cap = s.cap := rfl
@[simp] theorem State.restore_lines (sn : Snapshot) :
    (s.restore sn).lines = s.lines := rfl

/-! ## setInbuf -/

@[simp] theorem State.setInbuf_mem (bs : List Byte) :
    (s.setInbuf bs).mem = s.mem := rfl
@[simp] theorem State.setInbuf_regs (bs : List Byte) :
    (s.setInbuf bs).regs = s.regs := rfl
@[simp] theorem State.setInbuf_stack (bs : List Byte) :
    (s.setInbuf bs).stack = s.stack := rfl
@[simp] theorem State.setInbuf_pc (bs : List Byte) :
    (s.setInbuf bs).pc = s.pc := rfl
@[simp] theorem State.setInbuf_run (bs : List Byte) :
    (s.setInbuf bs).run = s.run := rfl
@[simp] theorem State.setInbuf_fault (bs : List Byte) :
    (s.setInbuf bs).fault = s.fault := rfl
@[simp] theorem State.setInbuf_inbuf (bs : List Byte) :
    (s.setInbuf bs).inbuf = bs := rfl
@[simp] theorem State.setInbuf_snap (bs : List Byte) :
    (s.setInbuf bs).snap = s.snap := rfl
@[simp] theorem State.setInbuf_outlog (bs : List Byte) :
    (s.setInbuf bs).outlog = s.outlog := rfl
@[simp] theorem State.setInbuf_cap (bs : List Byte) :
    (s.setInbuf bs).cap = s.cap := rfl
@[simp] theorem State.setInbuf_lines (bs : List Byte) :
    (s.setInbuf bs).lines = s.lines := rfl

/-! ## setLines -/

@[simp] theorem State.setLines_mem (ls : List Line) :
    (s.setLines ls).mem = s.mem := rfl
@[simp] theorem State.setLines_regs (ls : List Line) :
    (s.setLines ls).regs = s.regs := rfl
@[simp] theorem State.setLines_stack (ls : List Line) :
    (s.setLines ls).stack = s.stack := rfl
@[simp] theorem State.setLines_pc (ls : List Line) :
    (s.setLines ls).pc = s.pc := rfl
@[simp] theorem State.setLines_run (ls : List Line) :
    (s.setLines ls).run = s.run := rfl
@[simp] theorem State.setLines_fault (ls : List Line) :
    (s.setLines ls).fault = s.fault := rfl
@[simp] theorem State.setLines_inbuf (ls : List Line) :
    (s.setLines ls).inbuf = s.inbuf := rfl
@[simp] theorem State.setLines_snap (ls : List Line) :
    (s.setLines ls).snap = s.snap := rfl
@[simp] theorem State.setLines_outlog (ls : List Line) :
    (s.setLines ls).outlog = s.outlog := rfl
@[simp] theorem State.setLines_cap (ls : List Line) :
    (s.setLines ls).cap = s.cap := rfl
@[simp] theorem State.setLines_lines (ls : List Line) :
    (s.setLines ls).lines = ls := rfl

/-! ## deliverLine -/

@[simp] theorem State.deliverLine_mem (l : Line) :
    (s.deliverLine l).mem = s.mem := rfl
@[simp] theorem State.deliverLine_regs (l : Line) :
    (s.deliverLine l).regs = s.regs := rfl
@[simp] theorem State.deliverLine_stack (l : Line) :
    (s.deliverLine l).stack = s.stack := rfl
@[simp] theorem State.deliverLine_pc (l : Line) :
    (s.deliverLine l).pc = s.pc := rfl
@[simp] theorem State.deliverLine_run (l : Line) :
    (s.deliverLine l).run = s.run := rfl
@[simp] theorem State.deliverLine_fault (l : Line) :
    (s.deliverLine l).fault = s.fault := rfl
@[simp] theorem State.deliverLine_inbuf (l : Line) :
    (s.deliverLine l).inbuf = s.inbuf := rfl
@[simp] theorem State.deliverLine_snap (l : Line) :
    (s.deliverLine l).snap = s.snap := rfl
@[simp] theorem State.deliverLine_outlog (l : Line) :
    (s.deliverLine l).outlog = s.outlog := rfl
@[simp] theorem State.deliverLine_cap (l : Line) :
    (s.deliverLine l).cap = s.cap := rfl
@[simp] theorem State.deliverLine_lines (l : Line) :
    (s.deliverLine l).lines = s.lines ++ [l] := rfl

/-! ## Registers -/

@[simp] theorem State.getReg_setReg_self (i : RegIdx) (v : Value) : (s.setReg i v).getReg i = v := by
  simp [State.getReg]

@[simp] theorem State.getReg_setReg_ne {i j : RegIdx} (h : j ≠ i) (v : Value) :
    (s.setReg i v).getReg j = s.getReg j := by
  have : i.val ≠ j.val := fun e => h (Fin.ext e.symm)
  simp [State.getReg, Vector.getElem_set_ne, this]

/-- Two states with the same register file have the same registers. -/
theorem State.getReg_congr {s t : State} (h : t.regs = s.regs) (i : RegIdx) : t.getReg i = s.getReg i := by
  simp [State.getReg, h]

@[simp] theorem State.getReg_setPc (n : Nat) (i : RegIdx) : (s.setPc n).getReg i = s.getReg i := rfl
@[simp] theorem State.getReg_advance (n : Nat) (i : RegIdx) : (s.advance n).getReg i = s.getReg i := rfl
@[simp] theorem State.getReg_memWrite (a : Nat) (w : Word) (i : RegIdx) :
    (s.memWrite a w).getReg i = s.getReg i := rfl
@[simp] theorem State.getReg_halt (i : RegIdx) : s.halt.getReg i = s.getReg i := rfl
@[simp] theorem State.getReg_raise (o : Option Word) (c : Cause) (i : RegIdx) :
    (s.raise o c).getReg i = s.getReg i := rfl
@[simp] theorem State.getReg_pushed (v : Value) (i : RegIdx) : (s.pushed v).getReg i = s.getReg i := rfl
@[simp] theorem State.getReg_popped (i : RegIdx) : s.popped.getReg i = s.getReg i := rfl
@[simp] theorem State.getReg_emit (b : Byte) (i : RegIdx) : (s.emit b).getReg i = s.getReg i := rfl
@[simp] theorem State.getReg_saveSnapshot (i : RegIdx) : s.saveSnapshot.getReg i = s.getReg i := rfl
@[simp] theorem State.getReg_restore (sn : Snapshot) (i : RegIdx) :
    (s.restore sn).getReg i = sn.regs[i.val] := rfl
@[simp] theorem State.getReg_setInbuf (bs : List Byte) (i : RegIdx) :
    (s.setInbuf bs).getReg i = s.getReg i := rfl
@[simp] theorem State.getReg_setLines (ls : List Line) (i : RegIdx) :
    (s.setLines ls).getReg i = s.getReg i := rfl
@[simp] theorem State.getReg_deliverLine (l : Line) (i : RegIdx) :
    (s.deliverLine l).getReg i = s.getReg i := rfl

end Sys2Proof.Machine
end

