-- ==== Sys2Proof/Laws/Memory.lean ====
section
/-! SUPPORT. Memory cells: a read after a write, and that every memory operation keeps the canonical form
(`Memory.wf`). -/

namespace Sys2Proof.Machine

open Sys2Proof.Config

/-! ## Reads after writes -/

@[simp] theorem Memory.cell_write_self (m : Memory) (a : Nat) (w : Word) :
    Memory.cell (Memory.write m a w) a = some w := by
  induction m with
  | nil => simp [Memory.write, Memory.cell]
  | cons c rest ih =>
    obtain ⟨b, v⟩ := c
    by_cases hlt : a < b
    · simp [Memory.write, Memory.cell, hlt]
    · by_cases heq : a = b
      · simp [Memory.write, Memory.cell, heq]
      · simp [Memory.write, Memory.cell, hlt, heq, ih]

@[simp] theorem Memory.cell_write_ne (m : Memory) {a b : Nat} (w : Word) (h : b ≠ a) :
    Memory.cell (Memory.write m a w) b = Memory.cell m b := by
  induction m with
  | nil => simp [Memory.write, Memory.cell, h]
  | cons c rest ih =>
    obtain ⟨x, v⟩ := c
    by_cases hlt : a < x
    · simp [Memory.write, Memory.cell, hlt, h]
    · by_cases heq : a = x
      · subst heq
        simp [Memory.write, Memory.cell, h]
      · by_cases hbx : b = x
        · simp [Memory.write, Memory.cell, hlt, heq, hbx]
        · simp [Memory.write, Memory.cell, hlt, heq, hbx, ih]

/-! ## The canonical form -/

theorem Memory.wf_nil : Memory.wf [] := by
  simp [Memory.wf]

/-- The addresses of a written memory are the old ones and the one written. -/
theorem Memory.mem_addresses_write {m : Memory} {a : Nat} {w : Word} {x : Nat}
    (h : x ∈ (Memory.write m a w).map Prod.fst) : x = a ∨ x ∈ m.map Prod.fst := by
  induction m with
  | nil => simpa [Memory.write] using h
  | cons c rest ih =>
    obtain ⟨b, v⟩ := c
    by_cases hlt : a < b
    · simpa [Memory.write, hlt] using h
    · by_cases heq : a = b
      · subst heq
        simp only [Memory.write, lt_irrefl, if_false, if_true, List.map_cons, List.mem_cons] at h ⊢
        tauto
      · simp only [Memory.write, hlt, heq, if_false, List.map_cons, List.mem_cons] at h ⊢
        rcases h with h | h
        · exact .inr (.inl h)
        · rcases ih h with h' | h'
          · exact .inl h'
          · exact .inr (.inr h')

theorem Memory.rising_write {m : Memory} (h : (m.map Prod.fst).Pairwise (· < ·)) (a : Nat) (w : Word) :
    ((Memory.write m a w).map Prod.fst).Pairwise (· < ·) := by
  induction m with
  | nil => simp [Memory.write]
  | cons c rest ih =>
    obtain ⟨b, v⟩ := c
    simp only [List.map_cons, List.pairwise_cons] at h
    by_cases hlt : a < b
    · simp only [Memory.write, hlt, if_true, List.map_cons, List.pairwise_cons, List.mem_cons]
      refine ⟨?_, h⟩
      rintro x (rfl | hx)
      · exact hlt
      · exact lt_trans hlt (h.1 x hx)
    · by_cases heq : a = b
      · subst heq
        simpa [Memory.write] using h
      · simp only [Memory.write, hlt, heq, if_false, List.map_cons, List.pairwise_cons]
        refine ⟨fun x hx => ?_, ih h.2⟩
        rcases Memory.mem_addresses_write hx with rfl | hx
        · omega
        · exact h.1 x hx

/-- A write to a cell that exists keeps the canonical form. -/
theorem Memory.wf_write {m : Memory} (h : Memory.wf m) {a : Nat} (ha : a < memWords) (w : Word) :
    Memory.wf (Memory.write m a w) := by
  refine ⟨Memory.rising_write h.1 a w, fun c hc => ?_⟩
  rcases Memory.mem_addresses_write (List.mem_map_of_mem (f := Prod.fst) hc) with he | hm
  · exact he ▸ ha
  · obtain ⟨c', hc', he⟩ := List.mem_map.mp hm
    exact he ▸ h.2 c' hc'

/-- Placing words keeps the canonical form, whatever the address. -/
theorem Memory.wf_writeAll {m : Memory} (h : Memory.wf m) (a : Nat) (ws : List Word) :
    Memory.wf (Memory.writeAll m a ws) := by
  induction ws generalizing m a with
  | nil => simpa [Memory.writeAll] using h
  | cons w ws ih =>
    simp only [Memory.writeAll]
    split
    · exact ih (Memory.wf_write h ‹_› w) _
    · exact ih h _

/-- Every address of an image loaded at `a` is in `a` … `a + N - 1`. -/
theorem Memory.addresses_ofImage {a x : Nat} {ws : List Word}
    (h : x ∈ (Memory.ofImage a ws).map Prod.fst) : a ≤ x ∧ x < a + ws.length := by
  induction ws generalizing a with
  | nil => simp [Memory.ofImage] at h
  | cons w ws ih =>
    simp only [Memory.ofImage, List.map_cons, List.mem_cons] at h
    rcases h with rfl | h
    · simp
    · have := ih h
      simp only [List.length_cons]
      omega

/-- The memory an image loads is canonical when it fits. -/
theorem Memory.wf_ofImage {a : Nat} {ws : List Word} (h : a + ws.length ≤ memWords) :
    Memory.wf (Memory.ofImage a ws) := by
  refine ⟨?_, fun c hc => ?_⟩
  · clear h
    induction ws generalizing a with
    | nil => simp [Memory.ofImage]
    | cons w ws ih =>
      simp only [Memory.ofImage, List.map_cons, List.pairwise_cons]
      exact ⟨fun x hx => by have := Memory.addresses_ofImage hx; omega, ih⟩
  · have := Memory.addresses_ofImage (List.mem_map_of_mem (f := Prod.fst) hc)
    omega

/-! ## MemRead -/

/-- `MemRead` answers a word exactly when the cell exists and holds it. -/
theorem memRead_eq_ok {m : Memory} {a : Nat} {w : Word} :
    memRead m a = .ok w ↔ a < memWords ∧ Memory.cell m a = some w := by
  unfold memRead
  split
  · simp; omega
  · split <;> simp_all

/-- `MemRead` faults exactly past the last cell, or on `UNINIT`. -/
theorem memRead_eq_error {m : Memory} {a : Nat} {c : Cause} :
    memRead m a = .error c ↔
      (memWords ≤ a ∧ c = ⟨.addressOutOfRange, .address a⟩) ∨
      (a < memWords ∧ Memory.cell m a = none ∧ c = ⟨.uninitialisedRead, .address a⟩) := by
  unfold memRead
  split
  · have := ‹memWords ≤ a›
    simp [eq_comm, this]
  · have hlt : a < memWords := by omega
    cases h : Memory.cell m a <;> simp [hlt, Nat.not_le.mpr hlt, eq_comm]

end Sys2Proof.Machine
end

