-- ==== Sys2Proof/Laws/Ops.lean ====
section
/-! SUPPORT. One lemma per shared operation: what it answers on each kind of input, and what follows when it
answers a next state. A meaning is unfolded once and these are cited. -/

namespace Sys2Proof.Machine

open Sys2Proof.Config

variable {s t : State} {sel : Word} {k : Nat} {o : Operand}

/-! ## Operands -/

@[simp] theorem resolve_literal (v : Value) : resolve s (.literal v) = some v := rfl
@[simp] theorem resolve_register (i : RegIdx) : resolve s (.register i) = some (s.getReg i) := rfl
@[simp] theorem resolve_invalid (w : Word) : resolve s (.invalid w) = none := rfl
@[simp] theorem dest_literal (v : Value) : dest (.literal v) = none := rfl
@[simp] theorem dest_register (i : RegIdx) : dest (.register i) = some i := rfl
@[simp] theorem dest_invalid (w : Word) : dest (.invalid w) = none := rfl

/-- A source operand has a value exactly when it passes validation. -/
theorem resolve_isSome : (resolve s o).isSome = o.validIn .src := by
  cases o <;> rfl

/-- A destination operand names a register exactly when it passes validation. -/
theorem dest_isSome : (dest o).isSome = o.validIn .dst := by
  cases o <;> rfl

@[simp] theorem withSrc_some {v : Value} (h : resolve s o = some v) (f : Value → Result) :
    withSrc sel k o s f = f v := by
  simp [withSrc, h]

@[simp] theorem withSrc_invalid (w : Word) (f : Value → Result) :
    withSrc sel k (.invalid w) s f = raiseAt sel .invalidOperand (.operand k w) s := rfl

@[simp] theorem withDst_register (d : RegIdx) (f : RegIdx → Result) :
    withDst sel (.register d) s f = f d := rfl

@[simp] theorem withDst_literal (v : Value) (f : RegIdx → Result) :
    withDst sel (.literal v) s f =
      raiseAt sel .invalidDestination (.operand 1 (v.setWidth 16)) s := rfl

@[simp] theorem withDst_invalid (w : Word) (f : RegIdx → Result) :
    withDst sel (.invalid w) s f = raiseAt sel .invalidOperand (.operand 1 w) s := rfl

/-- A source operand that leads to a next state: it has a value and the rest answers it, or it is an invalid
word and the state is the fault's. -/
theorem withSrc_next {f : Value → Result} (h : withSrc sel k o s f = .next t) :
    (∃ v, resolve s o = some v ∧ f v = .next t) ∨
    (∃ w, o = .invalid w ∧ t = s.raise (some sel) ⟨.invalidOperand, .operand k w⟩) := by
  cases o with
  | literal v => exact .inl ⟨v, rfl, h⟩
  | register i => exact .inl ⟨s.getReg i, rfl, h⟩
  | invalid w =>
    simp only [withSrc_invalid, raiseAt, Host.Outcome.next.injEq] at h
    exact .inr ⟨w, rfl, h.symm⟩

/-- A destination operand that leads to a next state: it names a register and the rest answers it, or it
names none and the state is the fault's. -/
theorem withDst_next {f : RegIdx → Result} (h : withDst sel o s f = .next t) :
    (∃ d, o = .register d ∧ f d = .next t) ∨
    (dest o = none ∧ t = s.raise (some sel) ⟨dstFault o, .operand 1 o.toWord⟩) := by
  cases o with
  | register i => exact .inl ⟨i, rfl, h⟩
  | literal v =>
    simp only [withDst, dest_literal, raiseAt, Host.Outcome.next.injEq] at h
    exact .inr ⟨rfl, h.symm⟩
  | invalid w =>
    simp only [withDst, dest_invalid, raiseAt, Host.Outcome.next.injEq] at h
    exact .inr ⟨rfl, h.symm⟩

/-! ## Faults and the stack -/

@[simp] theorem raiseAt_eq (kind : FaultKind) (info : FaultInfo) :
    raiseAt sel kind info s = .next (s.raise (some sel) ⟨kind, info⟩) := rfl

/-- Raising a fault is exactly a fault's effect (60_exceptions.md R107). -/
theorem State.raise_faultEffect (s : State) (opcode : Option Word) (c : Cause) :
    FaultEffect opcode c.kind c.info s (s.raise opcode c) where
  run := rfl
  record := rfl
  pc := rfl
  stack := rfl
  regs := fun _ => rfl
  cells := fun _ => rfl
  input := ⟨rfl, rfl, rfl, rfl⟩
  output := rfl

@[simp] theorem withPush_room {v : Value} (h : s.stackFull = false) (f : State → Result) :
    withPush sel v s f = f (s.pushed v) := by
  simp [withPush, h]

@[simp] theorem withPush_full {v : Value} (h : s.stackFull = true) (f : State → Result) :
    withPush sel v s f = raiseAt sel .stackOverflow (.depth s.stack.length) s := by
  simp [withPush, h]

@[simp] theorem withPop_empty {e : Result} (h : s.stack = []) (f : Value → State → Result) :
    withPop s e f = e := by
  simp [withPop, h]

@[simp] theorem withPop_concat {e : Result} {st : List Value} {v : Value} (h : s.stack = st ++ [v])
    (f : Value → State → Result) : withPop s e f = f v s.popped := by
  simp [withPop, h]

/-- A push that fits leaves a stack that fits. -/
theorem stackFits_pushed {v : Value} (h : stackFits s.cap s.stack = true) (hf : s.stackFull = false) :
    stackFits s.cap (s.stack ++ [v]) = true := by
  unfold State.stackFull at hf
  cases hc : s.cap with
  | unbounded => rfl
  | entries c =>
    simp only [hc, stackFits, decide_eq_true_eq, List.length_append, List.length_singleton,
      beq_eq_false_iff_ne] at *
    omega

/-- A pop leaves a stack that fits. -/
theorem stackFits_popped (h : stackFits s.cap s.stack = true) :
    stackFits s.cap s.stack.dropLast = true := by
  cases hc : s.cap with
  | unbounded => rfl
  | entries c =>
    simp only [hc, stackFits, decide_eq_true_eq, List.length_dropLast] at *
    omega

/-! ## Writing back -/

/-- What the end of a register-writing instruction does. -/
theorem writeBack_registerEffect (d : RegIdx) (v : Value) (n : Nat) (s : State) :
    ∃ t, writeBack d v n s = .next t ∧ RegisterEffect d v.toNat n s t :=
  ⟨_, rfl, by simp, rfl, fun j h => by simp [h], fun _ => rfl, rfl, ⟨rfl, rfl⟩, ⟨rfl, rfl, rfl, rfl⟩, rfl⟩

theorem writeBack_next {d : RegIdx} {v : Value} {n : Nat} (h : writeBack d v n s = .next t) :
    t = (s.setReg d v).advance n := by
  simpa [writeBack, eq_comm] using h

/-! ## The three-operand ALU instructions -/

theorem alu3_next {f : Value → Value → Value} {a b c : Operand} (h : alu3 sel f a b c s = .next t) :
    (∃ d vb vc, a = .register d ∧ resolve s b = some vb ∧ resolve s c = some vc ∧
      t = (s.setReg d (f vb vc)).advance 4) ∨
    (∃ cause, t = s.raise (some sel) cause) := by
  rcases withDst_next h with ⟨d, rfl, h⟩ | ⟨-, rfl⟩
  · rcases withSrc_next h with ⟨vb, hb, h⟩ | ⟨w, rfl, rfl⟩
    · rcases withSrc_next h with ⟨vc, hc, h⟩ | ⟨w, rfl, rfl⟩
      · exact .inl ⟨d, vb, vc, rfl, hb, hc, writeBack_next h⟩
      · exact .inr ⟨_, rfl⟩
    · exact .inr ⟨_, rfl⟩
  · exact .inr ⟨_, rfl⟩

/-! ## Input -/

/-- What `in` does with a line, in one list of cases (47_io.md R106). -/
theorem takeLine_next {d : RegIdx} {l : Line} (h : takeLine sel d l s = .next t) :
    (startsCI l saveWord = true ∧ t = s.saveSnapshot) ∨
    (startsCI l saveWord = false ∧ startsCI l loadWord = true ∧ s.snap = none ∧
      t = s.raise (some sel) ⟨.noSnapshot, .none⟩) ∨
    (startsCI l saveWord = false ∧ startsCI l loadWord = true ∧ ∃ sn, s.snap = some sn ∧
      t = s.restore sn) ∨
    (startsCI l saveWord = false ∧ startsCI l loadWord = false ∧
      t = ((s.setInbuf (refill l).2).setReg d (byteValue (refill l).1)).advance 2) := by
  unfold takeLine at h
  split at h
  · simp_all
  · split at h
    · split at h <;> simp_all
    · exact .inr (.inr (.inr ⟨by simp_all, by simp_all, writeBack_next h⟩))

/-! ## Fetch and step -/

/-- Fetching an instruction: the selector is readable and the decoder reads the operand words after it. -/
theorem fetch_eq_ok {i : Instr} :
    fetch s = .ok i ↔
      ∃ w, memRead s.mem s.pc = .ok w ∧ decodeOperands w (operandAt s) = .ok i := by
  unfold fetch
  cases memRead s.mem s.pc with
  | error c => simp
  | ok w =>
    cases h : decodeOperands w (operandAt s) with
    | error c => simp [h]
    | ok j => simp [h]

/-- A step that leads to a next state: the machine is Running, and the state is a fetch fault's or what the
fetched instruction does. -/
theorem step_next (h : step s = .next t) :
    s.run = .running ∧
    ((∃ opcode c, fetch s = .error (opcode, c) ∧ t = s.raise opcode c) ∨
     (∃ i, fetch s = .ok i ∧ exec i s = .next t)) := by
  unfold step at h
  split at h
  · cases h
  · cases h
  · refine ⟨‹_›, ?_⟩
    split at h
    · exact .inl ⟨_, _, ‹_›, by simpa [eq_comm] using h⟩
    · exact .inr ⟨_, ‹_›, h⟩

end Sys2Proof.Machine
end

