-- ==== Sys2Proof/Laws/Exec.lean ====
section
/-! SUPPORT. Once for all instructions: every next state `exec` can answer, as one of a few shapes
(`ExecEffect`). Every statement about what no instruction does goes by cases on it, without unfolding a
meaning. The shapes are weaker than the meanings: they say which fields are written, not every value. -/

namespace Sys2Proof.Machine

open Sys2Proof.Config

/-- The shapes of a next state of `exec i s`. -/
inductive ExecEffect (i : Instr) (s : State) : State → Prop where
  /-- A fault; its info fits its kind when the instruction and STACK_CAPACITY are well formed. -/
  | raised (c : Cause)
      (fits : i.wf = true → s.cap.wf = true → c.info.fits c.kind = true) :
      ExecEffect i s (s.raise (some i.selector) c)
  /-- `in`, a load line, the slot empty: the fault with the line taken. -/
  | noSnapshot (o : Operand) (l : Line) (ls : List Line) (instr : i = .inp o) (buf : s.inbuf = [])
      (lines : s.lines = l :: ls) (slot : s.snap = none) :
      ExecEffect i s ((s.setLines ls).raise (some i.selector) ⟨.noSnapshot, .none⟩)
  /-- `halt`, or `ret` on the empty stack. -/
  | halted (instr : i = .halt ∨ i = .ret ∧ s.stack = []) : ExecEffect i s s.halt
  /-- `noop` and the unassigned selectors. -/
  | advanced (instr : i = .noop ∨ ∃ w, i = .unassigned w) : ExecEffect i s (s.advance i.length)
  /-- An instruction with a destination that writes it and nothing else. -/
  | register (d : RegIdx) (v : Value) (o : Operand) (rest : List (Role × Operand))
      (operands : i.operands = (.dst, o) :: rest) (names : dest o = some d) (notIn : ∀ a, i ≠ .inp a) :
      ExecEffect i s ((s.setReg d v).advance i.length)
  | pop (d : RegIdx) (st : List Value) (v : Value) (instr : i = .pop (.register d))
      (stack : s.stack = st ++ [v]) : ExecEffect i s ((s.popped.setReg d v).advance 2)
  | push (a : Operand) (v : Value) (instr : i = .push a) (room : s.stackFull = false) :
      ExecEffect i s ((s.pushed v).advance 2)
  | call (a : Operand) (v r : Value) (instr : i = .call a) (src : resolve s a = some v)
      (room : s.stackFull = false) : ExecEffect i s ((s.pushed r).setPc v.toNat)
  | ret (st : List Value) (v : Value) (instr : i = .ret) (stack : s.stack = st ++ [v]) :
      ExecEffect i s (s.popped.setPc v.toNat)
  | jmp (a : Operand) (v : Value) (instr : i = .jmp a) (src : resolve s a = some v) :
      ExecEffect i s (s.setPc v.toNat)
  | jt (a b : Operand) (va vb : Value) (instr : i = .jt a b) (srcA : resolve s a = some va)
      (srcB : resolve s b = some vb) :
      ExecEffect i s (s.setPc (if va.toNat ≠ 0 then vb.toNat else s.pc + 3))
  | jf (a b : Operand) (va vb : Value) (instr : i = .jf a b) (srcA : resolve s a = some va)
      (srcB : resolve s b = some vb) :
      ExecEffect i s (s.setPc (if va.toNat = 0 then vb.toNat else s.pc + 3))
  | wmem (a b : Operand) (va vb : Value) (instr : i = .wmem a b) (srcA : resolve s a = some va)
      (srcB : resolve s b = some vb) :
      ExecEffect i s ((s.memWrite (storeAddress va) (vb.setWidth 16)).advance 3)
  | out (a : Operand) (b : Byte) (instr : i = .out a) : ExecEffect i s ((s.emit b).advance 2)
  | byte (d : RegIdx) (b : Byte) (rest : List Byte) (instr : i = .inp (.register d))
      (buf : s.inbuf = b :: rest) :
      ExecEffect i s (((s.setInbuf rest).setReg d (byteValue b)).advance 2)
  | line (d : RegIdx) (l : Line) (ls : List Line) (instr : i = .inp (.register d))
      (buf : s.inbuf = []) (lines : s.lines = l :: ls) :
      ExecEffect i s
        ((((s.setLines ls).setInbuf (refill l).2).setReg d (byteValue (refill l).1)).advance 2)
  | save (d : RegIdx) (l : Line) (ls : List Line) (instr : i = .inp (.register d)) (buf : s.inbuf = [])
      (lines : s.lines = l :: ls) (test : startsCI l saveWord = true) :
      ExecEffect i s (s.setLines ls).saveSnapshot
  | load (d : RegIdx) (l : Line) (ls : List Line) (sn : Snapshot) (instr : i = .inp (.register d))
      (buf : s.inbuf = []) (lines : s.lines = l :: ls) (test : startsCI l loadWord = true)
      (slot : s.snap = some sn) : ExecEffect i s ((s.setLines ls).restore sn)

/-! ## Faults of the shared operations, with an info that fits -/

variable {i : Instr} {s t : State}

/-- A well-formed instruction's operands are well formed. -/
theorem wf_operand {i : Instr} (h : i.wf = true) {p : Role × Operand} (hp : p ∈ i.operands) :
    p.2.wf = true := by
  simp only [Instr.wf, Bool.and_eq_true, List.all_eq_true] at h
  exact h.2 p hp

/-- An instruction has at most three operands. -/
theorem operands_length_le (i : Instr) : i.operands.length ≤ 3 := by
  cases i <;> simp [Instr.operands]

/-- The fault of a destination operand that names no register is one R110 or R112 describes. -/
theorem dstFault_fits {o : Operand} (h : dest o = none) (hw : o.wf = true) :
    (FaultInfo.operand 1 o.toWord).fits (dstFault o) = true := by
  cases o with
  | register i => simp at h
  | literal v =>
    have hv := v.isLt
    have : (v.setWidth 16).toNat = v.toNat := by
      rw [BitVec.toNat_setWidth, Nat.mod_eq_of_lt (by omega)]
    have hle : v.toNat ≤ 32767 := by omega
    simpa [dstFault, Operand.toWord, FaultInfo.fits, this] using hle
  | invalid w =>
    simpa [dstFault, Operand.toWord, FaultInfo.fits, Operand.wf] using hw

/-- A failing `MemRead` raises a fault R113 or R114 describes. -/
theorem memRead_error_fits {m : Memory} {a : Nat} {c : Cause} (h : memRead m a = .error c) :
    c.info.fits c.kind = true := by
  rcases memRead_eq_error.mp h with ⟨ha, rfl⟩ | ⟨ha, -, rfl⟩ <;> simpa [FaultInfo.fits] using ha

/-- A destination operand of the instruction: it names a register and the rest answers, or a fault. -/
theorem dst_effect {o : Operand} {rest : List (Role × Operand)} {f : RegIdx → Result}
    (hi : i.operands = (.dst, o) :: rest) (h : withDst i.selector o s f = .next t) :
    ExecEffect i s t ∨ ∃ d, o = .register d ∧ f d = .next t := by
  rcases withDst_next h with ⟨d, rfl, h⟩ | ⟨hd, rfl⟩
  · exact .inr ⟨d, rfl, h⟩
  · refine .inl (.raised _ fun hw _ => dstFault_fits hd (wf_operand hw (p := (.dst, o)) ?_))
    simp [hi]

/-- A source operand of the instruction: it has a value and the rest answers, or a fault. -/
theorem src_effect {k : Nat} {o : Operand} {f : Value → Result} (h1 : 1 ≤ k)
    (hi : i.operands[k - 1]? = some (.src, o)) (h : withSrc i.selector k o s f = .next t) :
    ExecEffect i s t ∨ ∃ v, resolve s o = some v ∧ f v = .next t := by
  rcases withSrc_next h with ⟨v, hv, h⟩ | ⟨w, rfl, rfl⟩
  · exact .inr ⟨v, hv, h⟩
  · refine .inl (.raised _ fun hw _ => ?_)
    have hk := (List.getElem?_eq_some_iff.mp hi).1
    have h3 := operands_length_le i
    have hw : 32776 ≤ w.toNat := by
      simpa [Operand.wf] using wf_operand hw (List.mem_of_getElem? hi)
    simp only [FaultInfo.fits, decide_eq_true_eq]
    omega

/-- A push of the instruction: there is room and the rest answers, or a fault. -/
theorem push_effect {v : Value} {f : State → Result} (h : withPush i.selector v s f = .next t) :
    ExecEffect i s t ∨ s.stackFull = false ∧ f (s.pushed v) = .next t := by
  cases hf : s.stackFull with
  | false => exact .inr ⟨rfl, by rwa [withPush_room hf] at h⟩
  | true =>
    rw [withPush_full hf, raiseAt_eq, Host.Outcome.next.injEq] at h
    subst h
    refine .inl (.raised _ fun _ hc => ?_)
    unfold State.stackFull at hf
    cases hcap : s.cap with
    | unbounded => simp [hcap] at hf
    | entries c => simp_all [StackCapacity.wf, FaultInfo.fits]

/-- A pop: the stack is empty, or it has a top entry. -/
theorem withPop_next {e : Result} {f : Value → State → Result} (h : withPop s e f = .next t) :
    (s.stack = [] ∧ e = .next t) ∨ ∃ st v, s.stack = st ++ [v] ∧ f v s.popped = .next t := by
  rcases List.eq_nil_or_concat s.stack with h' | ⟨st, v, h'⟩
  · exact .inl ⟨h', by rwa [withPop_empty h'] at h⟩
  · rw [List.concat_eq_append] at h'
    exact .inr ⟨st, v, h', by rwa [withPop_concat h'] at h⟩

/-- The end of a register-writing instruction. -/
theorem writeBack_effect {d : RegIdx} {v : Value} {rest : List (Role × Operand)} {n : Nat}
    (hi : i.operands = (.dst, .register d) :: rest) (hn : n = i.length) (hin : ∀ a, i ≠ .inp a)
    (h : writeBack d v n s = .next t) : ExecEffect i s t := by
  rw [writeBack_next h, hn]
  exact .register d v _ rest hi rfl hin

/-- The three-operand ALU instructions. -/
theorem alu3_effect {f : Value → Value → Value} {a b c : Operand}
    (hi : i.operands = [(.dst, a), (.src, b), (.src, c)]) (hin : ∀ a, i ≠ .inp a)
    (h : alu3 i.selector f a b c s = .next t) : ExecEffect i s t := by
  rcases dst_effect hi h with h | ⟨d, rfl, h⟩
  · exact h
  rcases src_effect (by omega) (by simp [hi]) h with h | ⟨vb, -, h⟩
  · exact h
  rcases src_effect (by omega) (by simp [hi]) h with h | ⟨vc, -, h⟩
  · exact h
  exact writeBack_effect hi (by simp [Instr.length, hi]) hin h

/-- A raised fault of the instruction. -/
theorem raiseAt_effect {kind : FaultKind} {info : FaultInfo} (hf : info.fits kind = true)
    (h : raiseAt i.selector kind info s = .next t) : ExecEffect i s t := by
  rw [raiseAt_eq, Host.Outcome.next.injEq] at h
  subst h
  exact .raised _ fun _ _ => hf

theorem next_inj {a b : State} (h : (Host.Outcome.next a : Result) = .next b) : b = a := by
  cases h
  rfl

/-! ## Every instruction -/

theorem execMod_effect {a b c : Operand} (h : execMod a b c s = .next t) :
    ExecEffect (.mod a b c) s t := by
  rcases dst_effect (i := .mod a b c) rfl h with h | ⟨d, rfl, h⟩
  · exact h
  rcases src_effect (i := .mod (.register d) b c) (by omega) rfl h with h | ⟨vb, -, h⟩
  · exact h
  rcases src_effect (i := .mod (.register d) b c) (by omega) rfl h with h | ⟨vc, -, h⟩
  · exact h
  split at h
  · exact raiseAt_effect (i := .mod (.register d) b c) rfl h
  · exact writeBack_effect rfl rfl (by simp) h

theorem execRmem_effect {a b : Operand} (h : execRmem a b s = .next t) : ExecEffect (.rmem a b) s t := by
  rcases dst_effect (i := .rmem a b) rfl h with h | ⟨d, rfl, h⟩
  · exact h
  rcases src_effect (i := .rmem (.register d) b) (by omega) rfl h with h | ⟨v, -, h⟩
  · exact h
  have hv := v.isLt
  split at h
  · rw [next_inj h]
    exact .raised _ fun _ _ => memRead_error_fits ‹_›
  · split at h
    · refine raiseAt_effect (i := .rmem (.register d) b) ?_ h
      have : valueMod ≤ _ := ‹_›
      simp only [FaultInfo.fits, decide_eq_true_eq]
      simp only [valueMod] at this
      omega
    · exact writeBack_effect rfl rfl (by simp) h

theorem execCall_effect {a : Operand} (h : execCall a s = .next t) : ExecEffect (.call a) s t := by
  rcases src_effect (i := .call a) (by omega) rfl h with h | ⟨v, hv, h⟩
  · exact h
  split at h
  · refine raiseAt_effect (i := .call a) ?_ h
    simpa [FaultInfo.fits] using ‹valueMod ≤ _›
  · rcases push_effect (i := .call a) h with h | ⟨hf, h⟩
    · exact h
    · rw [next_inj h]
      exact .call a v _ rfl hv hf

theorem execInp_effect {a : Operand} (h : execInp a s = .next t) : ExecEffect (.inp a) s t := by
  rcases dst_effect (i := .inp a) rfl h with h | ⟨d, rfl, h⟩
  · exact h
  split at h
  · rw [writeBack_next h]
    exact .byte d _ _ rfl ‹_›
  · split at h
    · cases h
    · rcases takeLine_next h with ⟨h1, rfl⟩ | ⟨-, -, h3, rfl⟩ | ⟨-, h2, sn, h3, rfl⟩ | ⟨-, -, rfl⟩
      · exact .save d _ _ rfl ‹_› ‹_› h1
      · exact .noSnapshot _ _ _ rfl ‹_› ‹_› h3
      · exact .load d _ _ sn rfl ‹_› ‹_› h2 h3
      · exact .line d _ _ rfl ‹_› ‹_›

/-- Every next state of `exec` has one of the shapes. -/
theorem exec_effect (h : exec i s = .next t) : ExecEffect i s t := by
  cases i with
  | halt => rw [next_inj h]; exact .halted (.inl rfl)
  | noop => rw [next_inj h]; exact .advanced (.inl rfl)
  | unassigned w => rw [next_inj h]; exact .advanced (.inr ⟨w, rfl⟩)
  | eq | gt | add | mult | and | or => exact alu3_effect rfl (by simp) h
  | set a b | not a b =>
    rcases dst_effect rfl h with h | ⟨d, rfl, h⟩
    · exact h
    rcases src_effect (k := 2) (by omega) rfl h with h | ⟨v, -, h⟩
    · exact h
    exact writeBack_effect rfl rfl (by simp) h
  | mod => exact execMod_effect h
  | rmem => exact execRmem_effect h
  | call => exact execCall_effect h
  | inp => exact execInp_effect h
  | push a =>
    rcases src_effect (i := .push a) (by omega) rfl h with h | ⟨v, -, h⟩
    · exact h
    rcases push_effect (i := .push a) h with h | ⟨hf, h⟩
    · exact h
    rw [next_inj h]
    exact .push a v rfl hf
  | pop a =>
    rcases dst_effect (i := .pop a) rfl h with h | ⟨d, rfl, h⟩
    · exact h
    rcases withPop_next h with ⟨-, h⟩ | ⟨st, v, hs, h⟩
    · exact raiseAt_effect (i := .pop (.register d)) rfl h
    · rw [writeBack_next h]
      exact .pop d st v rfl hs
  | ret =>
    unfold exec execRet at h
    rcases withPop_next h with ⟨hs, h⟩ | ⟨st, v, hs, h⟩
    · rw [next_inj h]
      exact .halted (.inr ⟨rfl, hs⟩)
    · rw [next_inj h]
      exact .ret st v rfl hs
  | jmp a =>
    rcases src_effect (i := .jmp a) (by omega) rfl h with h | ⟨v, hv, h⟩
    · exact h
    rw [next_inj h]
    exact .jmp a v rfl hv
  | jt a b =>
    rcases src_effect (i := .jt a b) (by omega) rfl h with h | ⟨va, ha, h⟩
    · exact h
    rcases src_effect (i := .jt a b) (by omega) rfl h with h | ⟨vb, hb, h⟩
    · exact h
    have key := ExecEffect.jt (i := .jt a b) a b va vb rfl ha hb
    unfold isNonzero at h
    split at h <;> rw [next_inj h] <;> simp_all [State.advance]
  | jf a b =>
    rcases src_effect (i := .jf a b) (by omega) rfl h with h | ⟨va, ha, h⟩
    · exact h
    rcases src_effect (i := .jf a b) (by omega) rfl h with h | ⟨vb, hb, h⟩
    · exact h
    have key := ExecEffect.jf (i := .jf a b) a b va vb rfl ha hb
    unfold isNonzero at h
    split at h <;> rw [next_inj h] <;> simp_all [State.advance]
  | wmem a b =>
    rcases src_effect (i := .wmem a b) (by omega) rfl h with h | ⟨va, ha, h⟩
    · exact h
    rcases src_effect (i := .wmem a b) (by omega) rfl h with h | ⟨vb, hb, h⟩
    · exact h
    rw [next_inj h]
    exact .wmem a b va vb rfl ha hb
  | out a =>
    rcases src_effect (i := .out a) (by omega) rfl h with h | ⟨v, -, h⟩
    · exact h
    rw [next_inj h]
    exact .out a _ rfl

end Sys2Proof.Machine
end

