-- ==== Sys2Proof/Laws/PerInstr.lean ====
section
/-! SUPPORT. One family of statements per instruction: the arity the decoder's map gives an instruction's
selector is the number of operands the instruction has (30_encoding.md R55). -/

namespace Sys2Proof.Laws.OperandCount

/-- The opcode map and the syntax agree on the number of operand words. -/
def Statement (i : Instr) : Prop :=
  i.wf = true → arity i.selector = i.operands.length

theorem halt : Statement .halt := fun _ => rfl
theorem set (a b : Operand) : Statement (.set a b) := fun _ => rfl
theorem push (a : Operand) : Statement (.push a) := fun _ => rfl
theorem pop (a : Operand) : Statement (.pop a) := fun _ => rfl
theorem eq (a b c : Operand) : Statement (.eq a b c) := fun _ => rfl
theorem gt (a b c : Operand) : Statement (.gt a b c) := fun _ => rfl
theorem jmp (a : Operand) : Statement (.jmp a) := fun _ => rfl
theorem jt (a b : Operand) : Statement (.jt a b) := fun _ => rfl
theorem jf (a b : Operand) : Statement (.jf a b) := fun _ => rfl
theorem add (a b c : Operand) : Statement (.add a b c) := fun _ => rfl
theorem mult (a b c : Operand) : Statement (.mult a b c) := fun _ => rfl
theorem mod (a b c : Operand) : Statement (.mod a b c) := fun _ => rfl
theorem and (a b c : Operand) : Statement (.and a b c) := fun _ => rfl
theorem or (a b c : Operand) : Statement (.or a b c) := fun _ => rfl
theorem not (a b : Operand) : Statement (.not a b) := fun _ => rfl
theorem rmem (a b : Operand) : Statement (.rmem a b) := fun _ => rfl
theorem wmem (a b : Operand) : Statement (.wmem a b) := fun _ => rfl
theorem call (a : Operand) : Statement (.call a) := fun _ => rfl
theorem ret : Statement .ret := fun _ => rfl
theorem out (a : Operand) : Statement (.out a) := fun _ => rfl
theorem inp (a : Operand) : Statement (.inp a) := fun _ => rfl
theorem noop : Statement .noop := fun _ => rfl

theorem unassigned (sel : Word) : Statement (.unassigned sel) := by
  intro h
  have h : 22 ≤ sel.toNat := by simpa [Instr.wf, Instr.selectorWf, Instr.operands] using h
  simp only [Instr.selector, Instr.operands, List.length_nil, arity]
  split <;> omega

end Sys2Proof.Laws.OperandCount
end

