-- ==== Sys2Proof/Laws/Fetch.lean ====
section
/-! SUPPORT. What fetch gives: a well-formed instruction all of whose words are readable, or the fault of a
word that is not; and what holds of a cell that holds a word. -/

namespace Sys2Proof.Machine

open Sys2Proof.Config

/-- What a decoded instruction is: well formed, with the selector it was decoded from, each operand the class
of the word read at its position. -/
theorem decodeOperands_ok {ε : Type} {sel : Word} {rd : Nat → Except ε Word} {i : Instr}
    (h : decodeOperands sel rd = .ok i) :
    i.wf = true ∧ i.selector = sel ∧
      ∀ k p, i.operands[k]? = some p → ∃ w, rd (k + 1) = .ok w ∧ p.2 = .ofWord w := by
  by_cases hs : 22 ≤ sel.toNat
  · rw [decodeOperands_ge_22 hs] at h
    cases h
    simp [Instr.wf, Instr.selectorWf, Instr.operands, Instr.selector, hs]
  · have hsel : sel = BitVec.ofNat 16 sel.toNat := by simp
    generalize hn : sel.toNat = n at *
    subst hsel
    interval_cases n <;>
      simp only [decodeOperands, hn, decodeF1_ok, decodeF2_ok, decodeF3_ok, Except.ok.injEq] at h
    all_goals first
      | (subst h; exact ⟨rfl, rfl, by simp [Instr.operands]⟩)
      | (obtain ⟨a, ha, rfl⟩ := h
         refine ⟨by simp [Instr.wf, Instr.selectorWf, Instr.operands], rfl, fun k p hk => ?_⟩
         rcases k with _ | k
         · cases hk; exact ⟨a, ha, rfl⟩
         · simp [Instr.operands] at hk)
      | (obtain ⟨a, b, ha, hb, rfl⟩ := h
         refine ⟨by simp [Instr.wf, Instr.selectorWf, Instr.operands], rfl, fun k p hk => ?_⟩
         rcases k with _ | _ | k
         · cases hk; exact ⟨a, ha, rfl⟩
         · cases hk; exact ⟨b, hb, rfl⟩
         · simp [Instr.operands] at hk)
      | (obtain ⟨a, b, c, ha, hb, hc, rfl⟩ := h
         refine ⟨by simp [Instr.wf, Instr.selectorWf, Instr.operands], rfl, fun k p hk => ?_⟩
         rcases k with _ | _ | _ | k
         · cases hk; exact ⟨a, ha, rfl⟩
         · cases hk; exact ⟨b, hb, rfl⟩
         · cases hk; exact ⟨c, hc, rfl⟩
         · simp [Instr.operands] at hk)

/-- A failing format F1 read is the failure of a word. -/
theorem decodeF1_error {ε : Type} {rd : Nat → Except ε Word} {mk : Operand → Instr} {e : ε}
    (h : decodeF1 rd mk = .error e) : ∃ k, rd k = .error e := by
  unfold decodeF1 at h
  split at h <;> cases h
  exact ⟨1, ‹_›⟩

theorem decodeF2_error {ε : Type} {rd : Nat → Except ε Word} {mk : Operand → Operand → Instr} {e : ε}
    (h : decodeF2 rd mk = .error e) : ∃ k, rd k = .error e := by
  unfold decodeF2 at h
  split at h
  · cases h; exact ⟨1, ‹_›⟩
  · split at h <;> cases h
    exact ⟨2, ‹_›⟩

theorem decodeF3_error {ε : Type} {rd : Nat → Except ε Word}
    {mk : Operand → Operand → Operand → Instr} {e : ε} (h : decodeF3 rd mk = .error e) :
    ∃ k, rd k = .error e := by
  unfold decodeF3 at h
  split at h
  · cases h; exact ⟨1, ‹_›⟩
  · split at h
    · cases h; exact ⟨2, ‹_›⟩
    · split at h <;> cases h
      exact ⟨3, ‹_›⟩

/-- Decoding fails only where a word cannot be read: no selector is illegal (30_encoding.md R61). -/
theorem decodeOperands_error {ε : Type} {sel : Word} {rd : Nat → Except ε Word} {e : ε}
    (h : decodeOperands sel rd = .error e) : ∃ k, rd k = .error e := by
  unfold decodeOperands at h
  split at h <;>
    first
    | exact decodeF1_error h
    | exact decodeF2_error h
    | exact decodeF3_error h
    | cases h

/-- A fetched instruction: well formed, its selector in the cell at pc, and all of its words in cells that
exist. -/
theorem fetch_ok {s : State} {i : Instr} (h : fetch s = .ok i) :
    i.wf = true ∧ Memory.cell s.mem s.pc = some i.selector ∧ s.pc + i.length ≤ memWords := by
  obtain ⟨w, hw, hd⟩ := fetch_eq_ok.mp h
  obtain ⟨hwf, hsel, hops⟩ := decodeOperands_ok hd
  obtain ⟨hlt, hcell⟩ := memRead_eq_ok.mp hw
  refine ⟨hwf, hsel ▸ hcell, ?_⟩
  unfold Instr.length
  rcases Nat.eq_zero_or_pos i.operands.length with h0 | h0
  · omega
  · obtain ⟨v, hv, -⟩ := hops (i.operands.length - 1) i.operands[i.operands.length - 1] (by simp)
    have := (memRead_eq_ok.mp hv).1
    omega

/-- A fetch fault is AddressOutOfRange or UninitialisedRead, with its address. -/
theorem fetch_error {s : State} {o : Option Word} {c : Cause} (h : fetch s = .error (o, c)) :
    ∃ k, memRead s.mem (s.pc + k) = .error c := by
  unfold fetch at h
  split at h
  · cases h; exact ⟨0, ‹_›⟩
  · split at h <;> cases h
    exact decodeOperands_error ‹_›

/-- A cell of a canonical memory that holds a word exists. -/
theorem Memory.lt_of_cell {m : Memory} (h : Memory.wf m) {a : Nat} {w : Word}
    (hc : Memory.cell m a = some w) : a < memWords := by
  have key : ∀ m : Memory, Memory.cell m a = some w → (a, w) ∈ m := by
    intro m
    induction m with
    | nil => simp [Memory.cell]
    | cons c rest ih =>
      intro hc
      simp only [Memory.cell] at hc
      split at hc
      · cases hc; simp_all
      · exact List.mem_cons_of_mem _ (ih hc)
  exact h.2 _ (key m hc)

end Sys2Proof.Machine
end

