-- ==== Sys2Proof/Tests/Slice0.lean ====
section
/-! SUPPORT. The model's own tests. Every expected result is from spec/95_test_vectors.md (the id stands in the
name or the comment), from an example of the instruction's rule, or worked out by hand from the rule. First
the checks that refuse ill-formed terms, then decoding, then one step per test, then a witness for each
statement's hypotheses. -/

namespace Sys2Proof.Tests

open Sys2Proof Sys2Proof.Config Sys2Proof.Machine

/-! ## Helpers -/

/-- The reset machine with an image, an unbounded stack and the given lines (the vectors' conventions). -/
def withLines (image : List Nat) (lines : List Line) : State :=
  State.boot (image.map (BitVec.ofNat 16)) .unbounded lines

/-- The reset machine with an image. -/
def prog (image : List Nat) : State := withLines image []

/-- The reset machine with an image loaded at `a`, and pc there. -/
def progAt (a : Nat) (image : List Nat) : State :=
  { State.reset with mem := Memory.ofImage a (image.map (BitVec.ofNat 16)), pc := a }

/-- What a function sees of a next state. -/
def after {α : Type} (r : Result) (f : State → α) : Option α :=
  match r with
  | .next t => some (f t)
  | .fault _ => none
  | .refused _ => none

/-- The stop of a step that does not happen. -/
def stop (r : Result) : Option Fault :=
  match r with
  | .next _ => none
  | .fault f => some f
  | .refused _ => none

/-- The fault record of the next state, with its kind's code. -/
def record (r : Result) : Option (Nat × Nat × Option Word × FaultInfo) :=
  match r with
  | .next t => t.fault.map fun q => (q.kind.code, q.addr, q.opcode, q.info)
  | .fault _ => none
  | .refused _ => none

/-! ## Ill-formed terms are refused -/

theorem test_wf_invalid_operand_below_range : Operand.wf (.invalid 32775#16) = false := by decide
theorem test_wf_invalid_operand_in_range : Operand.wf (.invalid 32776#16) = true := by decide
theorem test_wf_unassigned_below_range : Instr.wf (.unassigned 21#16) = false := by decide
theorem test_wf_unassigned_in_range : Instr.wf (.unassigned 22#16) = true := by decide
theorem test_wf_instruction_with_ill_formed_operand :
    Instr.wf (.add (.register 0) (.literal 1#15) (.invalid 5#16)) = false := by decide
theorem test_valid_refuses_literal_destination :
    Instr.valid (.set (.literal 5#15) (.literal 1#15)) = false := by decide
theorem test_valid_refuses_invalid_source : Instr.valid (.push (.invalid 40000#16)) = false := by decide
theorem test_capacity_zero_refused : StackCapacity.wf (.entries 0) = false := by decide

/-! ## Decoding: words written out from 30_encoding.md R55 -/

theorem test_decode_halt : decode [0#16] = .ok (.halt, []) := by decide
theorem test_decode_set :
    decode [1#16, 32771#16, 1234#16] = .ok (.set (.register 3) (.literal 1234#15), []) := by decide
theorem test_decode_push : decode [2#16, 7#16] = .ok (.push (.literal 7#15), []) := by decide
theorem test_decode_pop : decode [3#16, 32769#16] = .ok (.pop (.register 1), []) := by decide
theorem test_decode_eq : decode [4#16, 32768#16, 5#16, 6#16] =
    .ok (.eq (.register 0) (.literal 5#15) (.literal 6#15), []) := by decide
theorem test_decode_gt : decode [5#16, 32774#16, 32773#16, 32769#16] =
    .ok (.gt (.register 6) (.register 5) (.register 1), []) := by decide
theorem test_decode_jmp : decode [6#16, 100#16] = .ok (.jmp (.literal 100#15), []) := by decide
theorem test_decode_jt :
    decode [7#16, 32768#16, 10#16] = .ok (.jt (.register 0) (.literal 10#15), []) := by decide
theorem test_decode_jf : decode [8#16, 0#16, 20#16] =
    .ok (.jf (.literal 0#15) (.literal 20#15), []) := by decide
theorem test_decode_add : decode [9#16, 32768#16, 4#16, 5#16] =
    .ok (.add (.register 0) (.literal 4#15) (.literal 5#15), []) := by decide
theorem test_decode_mult : decode [10#16, 32769#16, 32768#16, 32768#16] =
    .ok (.mult (.register 1) (.register 0) (.register 0), []) := by decide
theorem test_decode_mod : decode [11#16, 32770#16, 32769#16, 1000#16] =
    .ok (.mod (.register 2) (.register 1) (.literal 1000#15), []) := by decide
theorem test_decode_and : decode [12#16, 32772#16, 32771#16, 32768#16] =
    .ok (.and (.register 4) (.register 3) (.register 0), []) := by decide
theorem test_decode_or : decode [13#16, 32773#16, 32770#16, 32772#16] =
    .ok (.or (.register 5) (.register 2) (.register 4), []) := by decide
theorem test_decode_not :
    decode [14#16, 32771#16, 32770#16] = .ok (.not (.register 3) (.register 2), []) := by decide
theorem test_decode_rmem :
    decode [15#16, 32770#16, 10#16] = .ok (.rmem (.register 2) (.literal 10#15), []) := by decide
theorem test_decode_wmem :
    decode [16#16, 11#16, 32770#16] = .ok (.wmem (.literal 11#15) (.register 2), []) := by decide
theorem test_decode_call : decode [17#16, 8#16] = .ok (.call (.literal 8#15), []) := by decide
theorem test_decode_ret : decode [18#16, 9#16] = .ok (.ret, [9#16]) := by decide
theorem test_decode_out : decode [19#16, 32768#16] = .ok (.out (.register 0), []) := by decide
theorem test_decode_in : decode [20#16, 32775#16] = .ok (.inp (.register 7), []) := by decide
theorem test_decode_noop : decode [21#16] = .ok (.noop, []) := by decide
theorem test_decode_unassigned : decode [65535#16, 1#16] = .ok (.unassigned 65535#16, [1#16]) := by
  decide
theorem test_decode_register_word_as_selector :
    decode [32768#16] = .ok (.unassigned 32768#16, []) := by decide
theorem test_decode_boundary_operands : decode [16#16, 32767#16, 32776#16] =
    .ok (.wmem (.literal 32767#15) (.invalid 32776#16), []) := by decide
theorem test_decode_missing_operand : decode [9#16, 32768#16, 4#16] = .error (.missingOperand 3) := by
  decide
theorem test_decode_nothing : decode [] = .error .noSelector := by decide
/-- Bits 15..0 are the first word, 31..16 the second: 20 + 65536 * 32769. -/
theorem test_decode_table_word :
    decodeTableWord 32 2147549204 = some (.inp (.register 1)) := by decide
theorem test_with_fetch_word_runs_from_reset :
    after (step (State.reset.withFetchWord 48 (1 + 65536 * 32769 + 4294967296 * 7)))
      (fun t => (t.pc, t.getReg 1)) = some (3, 7#15) := by decide

/-! ## One step each -/

theorem test_SYS1_halt : after (step (prog [0])) (fun t => (t.pc, t.run)) = some (0, .halted) := by decide
theorem test_SYS2_noop : after (step (prog [21])) (fun t => (t.pc, t.run)) = some (1, .running) := by
  decide
theorem test_SYS4_unassigned : after (step (prog [32768])) (fun t => t.pc) = some 1 := by decide
theorem test_SYS5_unassigned_no_operand :
    after (step (prog [65535])) (fun t => (t.pc, t.fault)) = some (1, none) := by decide
theorem test_SYS6_noop_at_top :
    after (step (progAt 65535 [21])) (fun t => (t.pc, t.run)) = some (65536, .running) := by decide
theorem test_SYS7_fetch_past_top :
    record (step (progAt 65536 [])) = some (7, 65536, none, .address 65536) := by decide
theorem test_SYS8_empty_image : record (step (prog [])) = some (6, 0, none, .address 0) := by decide

theorem test_MOV2_set_register :
    after (step ((prog [1, 32768, 32769]).setReg 1 77#15)) (fun t => (t.getReg 0, t.pc)) =
      some (77#15, 3) := by decide
theorem test_MOV5_literal_destination :
    record (step (prog [1, 5, 1])) = some (5, 0, some 1#16, .operand 1 5#16) := by decide
theorem test_MOV6_invalid_source :
    record (step (prog [1, 32768, 32776])) = some (3, 0, some 1#16, .operand 2 32776#16) := by decide
theorem test_MOV8_operand_past_top :
    record (step (progAt 65534 [1, 32768])) = some (7, 65534, some 1#16, .address 65536) := by decide

theorem test_STK2_push_register :
    after (step ((prog [2, 32770]).setReg 2 500#15)) (fun t => (t.stack, t.pc)) =
      some ([500#15], 2) := by decide
theorem test_STK3_push_full :
    record (step { prog [2, 7] with cap := .entries 2, stack := [1#15, 2#15] }) =
      some (10, 0, some 2#16, .depth 2) := by decide
theorem test_STK4_pop :
    after (step { prog [3, 32769] with stack := [7#15, 4#15] }) (fun t => (t.getReg 1, t.stack, t.pc)) =
      some (4#15, [7#15], 2) := by decide
theorem test_STK6_pop_literal_before_underflow :
    record (step (prog [3, 1])) = some (5, 0, some 3#16, .operand 1 1#16) := by decide

theorem test_ALU3_eq_reads_before_write :
    after (step ((prog [4, 32768, 32768, 32768]).setReg 0 9#15)) (fun t => (t.getReg 0, t.pc)) =
      some (1#15, 4) := by decide
theorem test_ALU2_eq_differs :
    after (step ((prog [4, 32768, 5, 6]).setReg 0 9#15)) (fun t => t.getReg 0) = some 0#15 := by decide
theorem test_ALU5_gt_equal : after (step (prog [5, 32768, 5, 5])) (fun t => t.getReg 0) = some 0#15 := by
  decide
theorem test_ALU6_gt_unsigned :
    after (step (prog [5, 32768, 32767, 0])) (fun t => t.getReg 0) = some 1#15 := by decide
theorem test_ALU9_add_wraps :
    after (step (prog [9, 32768, 32767, 1])) (fun t => t.getReg 0) = some 0#15 := by decide
theorem test_ALU12_add_doubles :
    after (step ((prog [9, 32768, 32768, 32768]).setReg 0 20000#15)) (fun t => t.getReg 0) =
      some 7232#15 := by decide
theorem test_ALU14_mult_exact :
    after (step (prog [10, 32768, 32767, 32767])) (fun t => t.getReg 0) = some 1#15 := by decide
theorem test_ALU16_mult :
    after (step (prog [10, 32768, 12345, 12345])) (fun t => t.getReg 0) = some 27825#15 := by decide
theorem test_ALU19_mod : after (step (prog [11, 32768, 3, 10])) (fun t => t.getReg 0) = some 3#15 := by
  decide
theorem test_ALU24_mod_by_zero_register :
    record (step (prog [11, 32768, 5, 32769])) = some (2, 0, some 11#16, .none) := by decide
theorem test_ALU25_and : after (step (prog [12, 32768, 12, 10])) (fun t => t.getReg 0) = some 8#15 := by
  decide
theorem test_ALU28_or :
    after (step (prog [13, 32768, 21845, 10922])) (fun t => t.getReg 0) = some 32767#15 := by decide
theorem test_ALU31_not :
    after (step (prog [14, 32768, 21845])) (fun t => (t.getReg 0, t.pc)) = some (10922#15, 3) := by decide
theorem test_ALU33_first_operand_first :
    record (step (prog [9, 5, 40000, 1])) = some (5, 0, some 9#16, .operand 1 5#16) := by decide
theorem test_ALU34_operand_uninitialised :
    record (step (prog [9, 32768, 4])) = some (6, 0, some 9#16, .address 3) := by decide

theorem test_CTL2_jmp_register :
    after (step ((prog [6, 32772]).setReg 4 1234#15)) (fun t => t.pc) = some 1234 := by decide
theorem test_CTL4_jt_taken : after (step (prog [7, 5, 20])) (fun t => t.pc) = some 20 := by decide
theorem test_CTL7_jt_bad_target_not_taken :
    record (step (prog [7, 0, 40000])) = some (3, 0, some 7#16, .operand 2 40000#16) := by decide
theorem test_CTL9_jf_not_taken : after (step (prog [8, 7, 20])) (fun t => t.pc) = some 3 := by decide
theorem test_CTL10_jf_taken : after (step (prog [8, 32768, 10])) (fun t => t.pc) = some 10 := by decide
theorem test_CTL12_call_at_last_address :
    after (step (progAt 32765 [17, 8])) (fun t => (t.stack, t.pc)) = some ([32767#15], 8) := by decide
theorem test_CTL13_call_too_high :
    record (step (progAt 32766 [17, 8])) = some (9, 32766, some 17#16, .returnAddress 32768) := by decide
theorem test_CTL16_ret :
    after (step { prog [18] with stack := [7#15, 4#15] }) (fun t => (t.pc, t.stack)) =
      some (4, [7#15]) := by decide
theorem test_CTL17_ret_empty :
    after (step (progAt 5 [18])) (fun t => (t.pc, t.run, t.fault)) = some (5, .halted, none) := by decide

theorem test_MEM1_rmem :
    after (step ((prog [15, 32770, 10]).memWrite 10 19#16)) (fun t => (t.getReg 2, t.pc)) =
      some (19#15, 3) := by decide
theorem test_MEM5_rmem_wide_word :
    record (step ((prog [15, 32770, 10]).memWrite 10 32768#16)) =
      some (8, 0, some 15#16, .cell 10 32768#16) := by decide
theorem test_MEM7_wmem_registers :
    after (step (((prog [16, 32768, 32769]).setReg 0 50#15).setReg 1 9#15))
      (fun t => (Memory.cell t.mem 50, t.pc)) = some (some 9#16, 3) := by decide
theorem test_MEM8_wmem_own_operand :
    after (step (prog [16, 2, 0])) (fun t => (Memory.cell t.mem 2, t.pc)) = some (some 0#16, 3) := by
  decide

theorem test_IO2_out_low_byte :
    after (step (prog [19, 321])) (fun t => (t.outlog, t.pc)) = some ([65#8], 2) := by decide
theorem test_IO5_in_buffered :
    after (step { prog [20, 32768] with inbuf := [105#8, 10#8] }) (fun t => (t.getReg 0, t.inbuf, t.pc)) =
      some (105#15, [10#8], 2) := by decide
theorem test_IO6_in_line :
    after (step (withLines [20, 32768] [[104#8, 105#8]]))
      (fun t => (t.getReg 0, t.inbuf, t.lines, t.pc)) =
      some (104#15, [105#8, 10#8], [], 2) := by decide
theorem test_IO7_in_empty_line :
    after (step (withLines [20, 32768] [[]])) (fun t => (t.getReg 0, t.inbuf)) = some (10#15, []) := by
  decide
theorem test_IO9_in_save :
    after (step ((withLines [20, 32768] [[83#8, 97#8, 118#8, 101#8]]).setReg 0 5#15))
      (fun t => (t.snap.map (·.pc), t.snap.map (·.regs[0]), t.pc, t.getReg 0)) =
      some (some 0, some 5#15, 0, 5#15) := by decide
theorem test_IO11_in_leading_space_is_no_save :
    after (step (withLines [20, 32768] [[32#8, 115#8, 97#8, 118#8, 101#8]]))
      (fun t => (t.getReg 0, t.snap)) = some (32#15, none) := by decide
theorem test_IO13_in_load_empty_slot :
    record (step (withLines [20, 32768] [[108#8, 111#8, 97#8, 100#8]])) =
      some (4, 0, some 20#16, .none) := by decide
theorem test_IO14_in_load :
    after (step { progAt 4 [20, 32768] with
        lines := [[76#8, 79#8, 65#8, 68#8]], stack := [7#15],
        snap := some ⟨[(0, 20#16), (1, 32768#16)], 0, Vector.replicate 8 3#15⟩ })
      (fun t => (t.pc, t.getReg 2, Memory.cell t.mem 4, t.stack, t.snap.isSome)) =
      some (0, 3#15, none, [7#15], true) := by decide
theorem test_IO15_in_waits : stop (step (prog [20, 32768])) = some .awaitingLine := by decide
theorem test_IO16_in_literal_asks_no_line :
    after (step (withLines [20, 3] [[120#8]])) (fun t => (t.run, t.lines)) =
      some (.faulted, [[120#8]]) := by decide

theorem test_halted_has_no_step : stop (step { prog [21] with run := .halted }) = some .noStepHalted := by
  decide
theorem test_image_little_endian :
    assembleImage [9#8, 0#8, 0#8, 128#8] = some [9#16, 32768#16] := by decide
theorem test_image_odd_refused : assembleImage [9#8, 0#8, 1#8] = none := by decide

/-! ## Witnesses: a state and operands that meet each statement's hypotheses, at a boundary where there is one -/

/-- A Running machine with r1 = 77, an entry on the stack and `in r0` at pc. -/
def sample : State :=
  { ((prog [20, 32768]).setReg 1 77#15) with stack := [7#15, 4#15], cap := .entries 3 }

/-- "save" and "load". -/
def saveLine : Line := [115#8, 97#8, 118#8, 101#8]
def loadLine : Line := [108#8, 111#8, 97#8, 100#8]

/-- The snapshot `sample` would save. -/
def sampleSnapshot : Snapshot := ⟨sample.mem, 0, sample.regs⟩

/-- For both statements about `State.boot`. -/
theorem witness_BootLeavesResetValues : (List.replicate 65536 0#16).length ≤ 65536 := by
  rw [List.length_replicate]
theorem witness_ImageIsLittleEndianPairs_image :
    (List.replicate 131072 0#8).length % 2 = 0 ∧ (List.replicate 131072 0#8).length ≤ 131072 := by
  rw [List.length_replicate]; exact ⟨rfl, Nat.le_refl _⟩
theorem witness_ImageIsLittleEndianPairs_word :
    assembleImage [1#8, 2#8] = some [513#16] ∧ [513#16][0]? = some 513#16 := by decide
theorem witness_ImageIsLittleEndianPairs_odd : [1#8].length % 2 = 1 := by decide
theorem witness_ImageIsLittleEndianPairs_long : 131072 < (List.replicate 131073 0#8).length := by
  rw [List.length_replicate]; exact Nat.lt_succ_self _
theorem witness_DecodeInvertsEncode :
    Instr.wf (.jt (.literal 32767#15) (.invalid 32776#16)) = true ∧
    Instr.wf (.unassigned 22#16) = true := by decide
theorem witness_EncodeInvertsDecode :
    decode [2#16, 65535#16, 1#16] = .ok (.push (.invalid 65535#16), [1#16]) := by decide
theorem witness_LengthFromSelectorAlone_enough : arity 9#16 ≤ [0#16, 0#16, 0#16].length := by decide
theorem witness_LengthFromSelectorAlone_short : [0#16, 0#16].length < arity 9#16 := by decide
theorem witness_LengthFromSelectorAlone_unassigned : 22 ≤ (22#16).toNat := by decide
theorem witness_OperandWordsResolveByClass_literal : (32767#16).toNat ≤ 32767 := by decide
theorem witness_OperandWordsResolveByClass_register :
    (32768 ≤ (32768#16).toNat ∧ (32768#16).toNat ≤ 32775) ∧
    32768 ≤ (32775#16).toNat ∧ (32775#16).toNat ≤ 32775 := by decide
theorem witness_OperandWordsResolveByClass_invalid : 32776 ≤ (32776#16).toNat := by decide
theorem witness_StepRunsDecodedInstruction :
    (progAt 65535 [0]).run = .running ∧ decode [0#16] = .ok (.halt, []) ∧
    (progAt 65535 [0]).pc + [0#16].length ≤ 65536 ∧
    ∀ k < [0#16].length, Memory.cell (progAt 65535 [0]).mem ((progAt 65535 [0]).pc + k) =
      [0#16][k]? := by decide
theorem witness_StepExistsExactlyWhenRunningAndNotWaiting :
    (prog [21]).condition = .running ∧ (prog [20, 32768]).condition = .waiting ∧
    (prog [21]).halt.condition = .halted ∧
    ((prog [21]).raise none ⟨.divideByZero, .none⟩).condition = .faulted := by decide
theorem witness_SelectorFetchFaults_past_top :
    (progAt 65536 []).run = .running ∧ 65536 ≤ (progAt 65536 []).pc := by decide
theorem witness_SelectorFetchFaults_uninitialised :
    (progAt 65535 []).run = .running ∧ (progAt 65535 []).pc < 65536 ∧
    Memory.cell (progAt 65535 []).mem (progAt 65535 []).pc = none := by decide
/-- The second operand of a `set` at 65534, past the top. -/
theorem witness_OperandFetchFaultsInOrder_past_top :
    (progAt 65534 [1, 32768]).run = .running ∧ (progAt 65534 [1, 32768]).pc < 65536 ∧
    Memory.cell (progAt 65534 [1, 32768]).mem (progAt 65534 [1, 32768]).pc = some 1#16 ∧
    2 ≤ arity 1#16 ∧ 65536 ≤ (progAt 65534 [1, 32768]).pc + 2 ∧
    ∀ j, 1 ≤ j → j < 2 → (progAt 65534 [1, 32768]).pc + j < 65536 ∧
      Memory.cell (progAt 65534 [1, 32768]).mem ((progAt 65534 [1, 32768]).pc + j) ≠ none := by
  refine ⟨by decide, by decide, by decide, by decide, by decide, fun j h₁ h₂ => ?_⟩
  obtain rfl : j = 1 := by omega
  decide
/-- The third operand of an `add`, on an `UNINIT` cell. -/
theorem witness_OperandFetchFaultsInOrder_uninitialised :
    (prog [9, 32768, 4]).run = .running ∧
    Memory.cell (prog [9, 32768, 4]).mem (prog [9, 32768, 4]).pc = some 9#16 ∧ 3 ≤ arity 9#16 ∧
    (prog [9, 32768, 4]).pc + 3 < 65536 ∧
    Memory.cell (prog [9, 32768, 4]).mem ((prog [9, 32768, 4]).pc + 3) = none ∧
    ∀ j, 1 ≤ j → j < 3 → (prog [9, 32768, 4]).pc + j < 65536 ∧
      Memory.cell (prog [9, 32768, 4]).mem ((prog [9, 32768, 4]).pc + j) ≠ none := by
  refine ⟨by decide, by decide, by decide, by decide, by decide, fun j h₁ h₂ => ?_⟩
  obtain rfl | rfl : j = 1 ∨ j = 2 := by omega
  · decide
  · decide
theorem witness_FirstBadOperandFaults_invalid :
    Instr.operands (.add (.register 7) (.literal 1#15) (.invalid 32776#16)) =
      [(.dst, .register 7), (.src, .literal 1#15)] ++ (.src, .invalid 32776#16) :: [] ∧
    ∀ p ∈ [(Role.dst, Operand.register 7), (Role.src, Operand.literal 1#15)],
      p.2.validIn p.1 = true := by decide
theorem witness_FirstBadOperandFaults_literal_destination :
    Instr.operands (.pop (.literal 32767#15)) = [] ++ (.dst, .literal 32767#15) :: [] := by decide
theorem witness_FaultingStepIsPrecise :
    after (step (prog [11, 32768, 5, 0])) (fun t => t.run) = some .faulted := by decide
theorem witness_FaultingStepIsPrecise_line_taken :
    after (step (withLines [20, 32768] [loadLine])) (fun t => (t.run, t.lines)) =
      some (.faulted, []) := by decide
theorem witness_SelectorsFromTwentyOneStepByOneWord :
    (progAt 65535 [21]).run = .running ∧ (progAt 65535 [21]).pc < 65536 ∧
    Memory.cell (progAt 65535 [21]).mem (progAt 65535 [21]).pc = some 21#16 ∧
    21 ≤ (21#16).toNat := by decide

/-- For every statement with sources only: a literal and a register have values. -/
theorem witness_sources :
    resolve sample (.literal 32767#15) = some 32767#15 ∧ resolve sample (.register 1) = some 77#15 := by
  decide
theorem witness_SetWritesResolvedSource : resolve sample (.register 1) = some 77#15 := by decide
theorem witness_PushPutsValueOnTop :
    resolve sample (.register 1) = some 77#15 ∧ sample.cap = .entries 3 ∧ sample.stack.length ≠ 3 := by
  decide
theorem witness_PushPutsValueOnTop_unbounded :
    resolve (prog []) (.literal 0#15) = some 0#15 ∧ (prog []).cap = .unbounded := by decide
theorem witness_FullStackOverflows :
    resolve (sample.pushed 1#15) (.register 1) = some 77#15 ∧ (sample.pushed 1#15).cap = .entries 3 ∧
    (sample.pushed 1#15).stack.length = 3 ∧ (sample.pushed 1#15).pc + 2 ≤ 32767 := by decide
theorem witness_PopTakesTop : sample.stack = [7#15] ++ [4#15] := by decide
theorem witness_PopOnEmptyStackUnderflows : (prog []).stack = [] := by decide
theorem witness_PushesThenPopsReverse :
    (prog []).cap = .unbounded ∧ 1 ≤ 3 ∧ 3 ≤ [1#15, 2#15, 3#15].length := by decide
theorem witness_EqAndGtWriteZeroOrOne :
    resolve sample (.register 1) = some 77#15 ∧ resolve sample (.literal 77#15) = some 77#15 := by decide
theorem witness_AddAndMultReduceExactResult :
    resolve sample (.literal 32767#15) = some 32767#15 ∧ resolve sample (.register 1) = some 77#15 := by
  decide
theorem witness_ModWritesRemainder :
    resolve sample (.register 1) = some 77#15 ∧ resolve sample (.literal 1#15) = some 1#15 ∧
    (1#15).toNat ≠ 0 := by decide
theorem witness_ModByZeroFaults :
    resolve sample (.register 1) = some 77#15 ∧ resolve sample (.register 0) = some 0#15 ∧
    (0#15).toNat = 0 := by decide
theorem witness_BitwiseInstructionsActOnEachBit :
    resolve sample (.literal 21845#15) = some 21845#15 ∧ resolve sample (.register 1) = some 77#15 := by
  decide
theorem witness_NotTwiceRestoresValue : resolve sample (.register 1) = some 77#15 := by decide
theorem witness_JmpSetsPc : resolve sample (.register 1) = some 77#15 := by decide
theorem witness_JtAndJfTestResolvedValue :
    resolve sample (.register 0) = some 0#15 ∧ resolve sample (.literal 32767#15) = some 32767#15 := by
  decide
theorem witness_CallPushesReturnAddress :
    resolve (progAt 32765 [17, 8]) (.literal 8#15) = some 8#15 ∧ (progAt 32765 [17, 8]).pc + 2 ≤ 32767 ∧
    (progAt 32765 [17, 8]).cap = .unbounded := by decide
theorem witness_CallNearTopFaults :
    resolve (progAt 32766 [17, 8]) (.literal 8#15) = some 8#15 ∧ 32766 ≤ (progAt 32766 [17, 8]).pc := by
  decide
theorem witness_RetPopsOrHalts : sample.stack = [7#15] ++ [4#15] ∧ (prog []).stack = [] := by decide
theorem witness_CallThenRetResumesAfterCall :
    resolve sample (.register 1) = some 77#15 ∧ sample.pc + 2 ≤ 32767 ∧ sample.cap = .entries 3 ∧
    sample.stack.length ≠ 3 := by decide
theorem witness_RmemReadsCell :
    resolve (sample.memWrite 77 32767#16) (.register 1) = some 77#15 ∧
    Memory.cell (sample.memWrite 77 32767#16).mem (77#15).toNat = some 32767#16 ∧
    (32767#16).toNat ≤ 32767 := by decide
theorem witness_RmemFaultsOnNoValue_uninitialised :
    resolve sample (.literal 32767#15) = some 32767#15 ∧
    Memory.cell sample.mem (32767#15).toNat = none := by decide
theorem witness_RmemFaultsOnNoValue_wide :
    resolve sample (.literal 1#15) = some 1#15 ∧ Memory.cell sample.mem (1#15).toNat = some 32768#16 ∧
    32768 ≤ (32768#16).toNat := by decide
theorem witness_WmemWritesOneCell :
    resolve sample (.literal 32767#15) = some 32767#15 ∧ resolve sample (.register 1) = some 77#15 := by
  decide
theorem witness_NextFetchSeesWmem :
    sample.run = .running ∧ resolve sample (.literal 3#15) = some 3#15 ∧ (3#15).toNat = sample.pc + 3 ∧
    resolve sample (.register 0) = some 0#15 ∧ (0#15).toNat = 0 ∧
    resolve sample (.literal 21#15) = some 21#15 ∧ 21 ≤ (21#15).toNat := by decide
theorem witness_RmemReadsWhatWmemWrote :
    resolve sample (.literal 0#15) = some 0#15 ∧ resolve sample (.register 1) = some 77#15 := by decide
theorem witness_OutEmitsLowByte : resolve sample (.literal 256#15) = some 256#15 := by decide
theorem witness_InGivesBufferedByte :
    (sample.setInbuf [255#8, 10#8]).inbuf = 255#8 :: [10#8] := by decide
theorem witness_InTakesOrdinaryLine :
    (sample.setLines [[115#8, 97#8, 118#8]]).inbuf = [] ∧
    (sample.setLines [[115#8, 97#8, 118#8]]).lines = [115#8, 97#8, 118#8] :: [] ∧
    startsCI [115#8, 97#8, 118#8] saveWord = false ∧
    startsCI [115#8, 97#8, 118#8] loadWord = false := by decide
theorem witness_LineIsGivenWhole :
    (sample.setLines [[104#8, 105#8], saveLine]).inbuf = [] ∧
    (sample.setLines [[104#8, 105#8], saveLine]).lines = [104#8, 105#8] :: [saveLine] ∧
    startsCI [104#8, 105#8] saveWord = false ∧ startsCI [104#8, 105#8] loadWord = false ∧
    2 ≤ [104#8, 105#8].length := by decide
theorem witness_SaveLineFillsSlot :
    (sample.setLines [saveLine]).inbuf = [] ∧ (sample.setLines [saveLine]).lines = saveLine :: [] ∧
    startsCI saveLine saveWord = true := by decide
theorem witness_LoadLineRestoresSnapshot :
    ({ sample with snap := some sampleSnapshot, lines := [loadLine] } : State).inbuf = [] ∧
    ({ sample with snap := some sampleSnapshot, lines := [loadLine] } : State).lines = loadLine :: [] ∧
    startsCI loadLine loadWord = true ∧
    ({ sample with snap := some sampleSnapshot, lines := [loadLine] } : State).snap =
      some sampleSnapshot := ⟨rfl, rfl, rfl, rfl⟩
theorem witness_LoadWithoutSnapshotFaults :
    (sample.setLines [loadLine]).inbuf = [] ∧ (sample.setLines [loadLine]).lines = loadLine :: [] ∧
    startsCI loadLine loadWord = true ∧ (sample.setLines [loadLine]).snap = none := by decide
theorem witness_LineEndsTheWait : sample.condition = .waiting := by decide
theorem witness_ResetMeetsInvariant :
    [0#16].length ≤ 65536 ∧ StackCapacity.wf (.entries 1) = true ∧
    ∀ l ∈ [saveLine, []], lineOk l = true := by decide
/-- A state that meets the invariant and has a next step. -/
theorem witness_StepKeepsInvariant :
    (prog [21]).Inv ∧ after (step (prog [21])) (fun t => t.pc) = some 1 ∧ lineOk saveLine = true := by
  refine ⟨⟨by decide, by decide, by decide, by decide, by decide, ?_, by decide, by decide, ?_⟩, by decide,
    by decide⟩
  · intro r h
    cases h
  · intro sn h
    cases h
theorem witness_PcAfterEachInstruction :
    (prog []).run = .running ∧ after (exec .noop (prog [])) (fun t => (t.pc, t.run)) = some (1, .running) ∧
    after (exec .ret (prog [])) (fun t => (t.pc, t.run)) = some (0, .halted) := by decide
theorem witness_RegistersWrittenOnlyByDestination :
    after (exec (.set (.register 7) (.literal 1#15)) sample) (fun t => t.getReg 7) = some 1#15 ∧
    sample.getReg 7 = 0#15 := by decide
theorem witness_StackChangedOnlyByFour :
    after (exec .ret sample) (fun t => t.stack) = some [7#15] ∧ sample.stack = [7#15, 4#15] := by decide
theorem witness_CellsWrittenOnlyByWmemOrLoad :
    after (exec (.wmem (.literal 32767#15) (.literal 5#15)) sample) (fun t => Memory.cell t.mem 32767) =
      some (some 5#16) ∧ Memory.cell sample.mem 32767 = none := by decide
/-- No upper cell holds a word, in memory or in the slot, and the step is a save. -/
theorem witness_UpperCellsNeverWritten :
    (∀ x, 32768 ≤ x → Memory.cell (sample.setLines [saveLine]).mem x = none) ∧
    (sample.setLines [saveLine]).snap = none ∧
    after (step (sample.setLines [saveLine])) (fun t => t.snap.isSome) = some true := by
  refine ⟨fun x hx => ?_, by decide, by decide⟩
  have h0 : x ≠ 0 := by omega
  have h1 : x ≠ 1 := by omega
  simp [sample, prog, withLines, State.boot, Memory.ofImage, Memory.cell, State.setReg, State.setLines,
    h0, h1]
theorem witness_RunStateWrittenOnlyByHaltRetAndFaults :
    sample.run = .running ∧ sample.fault = none ∧
    after (exec .halt sample) (fun t => t.run) = some .halted ∧
    after (exec .noop sample) (fun t => t.run) = some .running ∧
    after (exec (.push (.invalid 32776#16)) sample) (fun t => t.run) = some .faulted := by decide
theorem witness_DevicesChangedOnlyByOutAndIn :
    after (exec (.out (.literal 65#15)) sample) (fun t => t.outlog) = some [65#8] ∧
    after (exec (.inp (.register 0)) (sample.setLines [saveLine])) (fun t => t.snap.isSome) = some true := by
  decide

end Sys2Proof.Tests
end

section
/-! The state right after construction (10_state.md R22, R29; 70_reset_and_hazards.md R139). -/

namespace Sys2Proof.Machine

open Sys2Proof.Config

theorem State.getReg_reset (i : RegIdx) : State.reset.getReg i = 0#15 :=
  Vector.getElem_replicate i.isLt

/-! Construction sets memory, capacity and input only, so what it leaves is what reset holds. -/

@[simp] theorem State.boot_regs (image : List Word) (cap : StackCapacity) (lines : List Line) :
    (State.boot image cap lines).regs = State.reset.regs := rfl

@[simp] theorem State.boot_stack (image : List Word) (cap : StackCapacity) (lines : List Line) :
    (State.boot image cap lines).stack = [] := rfl

@[simp] theorem State.getReg_boot (image : List Word) (cap : StackCapacity) (lines : List Line)
    (i : RegIdx) : (State.boot image cap lines).getReg i = 0#15 :=
  (State.getReg_congr (State.boot_regs image cap lines) i).trans (State.getReg_reset i)

/-- Settles O1: neither the register file nor the stack depends on the image, the capacity or the input. -/
theorem bootZeroesRegistersAndEmptiesStack : Obligations.BootZeroesRegistersAndEmptiesStack := by
  intro image cap lines _
  exact ⟨State.getReg_boot image cap lines, State.boot_stack image cap lines⟩

end Sys2Proof.Machine
end

section
/-! What decoding reads (30_encoding.md R51, R53): a selector's row reads as many operand words as its arity,
and nothing else of the words decides the length. -/

namespace Sys2Proof

/-- The four formats (30_encoding.md R51): a result of the decoder's rows, with the number of operand words
read for it. -/
inductive DecodesFormat {ε : Type} (rd : Nat → Except ε Word) : Nat → Except ε Instr → Prop where
  | f0 (i : Instr) : DecodesFormat rd 0 (.ok i)
  | f1 (mk : Operand → Instr) : DecodesFormat rd 1 (decodeF1 rd mk)
  | f2 (mk : Operand → Operand → Instr) : DecodesFormat rd 2 (decodeF2 rd mk)
  | f3 (mk : Operand → Operand → Operand → Instr) : DecodesFormat rd 3 (decodeF3 rd mk)

section

variable {ε : Type} {rd : Nat → Except ε Word} {n : Nat} {r : Except ε Instr}

/-- A format all of whose operand words can be read gives an instruction. -/
theorem DecodesFormat.ok (hf : DecodesFormat rd n r)
    (hr : ∀ k, 1 ≤ k → k ≤ n → ∃ w, rd k = .ok w) : ∃ i, r = .ok i := by
  cases hf with
  | f0 i => exact ⟨i, rfl⟩
  | f1 mk =>
    obtain ⟨a, ha⟩ := hr 1 (by omega) (by omega)
    exact ⟨_, decodeF1_ok.mpr ⟨a, ha, rfl⟩⟩
  | f2 mk =>
    obtain ⟨a, ha⟩ := hr 1 (by omega) (by omega)
    obtain ⟨b, hb⟩ := hr 2 (by omega) (by omega)
    exact ⟨_, decodeF2_ok.mpr ⟨a, b, ha, hb, rfl⟩⟩
  | f3 mk =>
    obtain ⟨a, ha⟩ := hr 1 (by omega) (by omega)
    obtain ⟨b, hb⟩ := hr 2 (by omega) (by omega)
    obtain ⟨c, hc⟩ := hr 3 (by omega) (by omega)
    exact ⟨_, decodeF3_ok.mpr ⟨a, b, c, ha, hb, hc, rfl⟩⟩

/-- The first operand word that cannot be read is a format's error (40_engine.md R69). -/
theorem DecodesFormat.error (hf : DecodesFormat rd n r) {k : Nat} {e : ε} (h1 : 1 ≤ k) (hn : k ≤ n)
    (hr : ∀ j, 1 ≤ j → j < k → ∃ w, rd j = .ok w) (he : rd k = .error e) : r = .error e := by
  cases hf with
  | f0 i => omega
  | f1 mk =>
    obtain rfl : k = 1 := by omega
    simp [decodeF1, he]
  | f2 mk =>
    obtain rfl | rfl : k = 1 ∨ k = 2 := by omega
    · simp [decodeF2, he]
    · obtain ⟨a, ha⟩ := hr 1 (by omega) (by omega)
      simp [decodeF2, ha, he]
  | f3 mk =>
    obtain rfl | rfl | rfl : k = 1 ∨ k = 2 ∨ k = 3 := by omega
    · simp [decodeF3, he]
    · obtain ⟨a, ha⟩ := hr 1 (by omega) (by omega)
      simp [decodeF3, ha, he]
    · obtain ⟨a, ha⟩ := hr 1 (by omega) (by omega)
      obtain ⟨b, hb⟩ := hr 2 (by omega) (by omega)
      simp [decodeF3, ha, hb, he]

end

/-- The opcode map gives no operand words to an unassigned selector (30_encoding.md R60). -/
theorem arity_ge_22 {sel : Word} (h : 22 ≤ sel.toNat) : arity sel = 0 :=
  Laws.OperandCount.unassigned sel (by simpa [Instr.wf, Instr.selectorWf, Instr.operands] using h)

/-- The arity of a well-formed instruction's selector is its number of operands. -/
theorem arity_selector {i : Instr} (h : i.wf = true) : arity i.selector = i.operands.length := by
  cases i with
  | unassigned sel => exact Laws.OperandCount.unassigned sel h
  | _ => rfl

/-- Every selector decodes in the format of its arity (30_encoding.md R55, R60). -/
theorem decodeOperands_format {ε : Type} (sel : Word) (rd : Nat → Except ε Word) :
    DecodesFormat rd (arity sel) (decodeOperands sel rd) := by
  by_cases hs : 22 ≤ sel.toNat
  · rw [arity_ge_22 hs, decodeOperands_ge_22 hs]
    exact .f0 _
  · have hsel : sel = BitVec.ofNat 16 sel.toNat := by simp
    generalize sel.toNat = n at hs hsel
    subst hsel
    interval_cases n <;> constructor

/-! ## Lists of words -/

theorem operandOfList_ok {rest : List Word} {k : Nat} (h1 : 1 ≤ k) (h : k ≤ rest.length) :
    ∃ w, operandOfList rest k = .ok w :=
  ⟨rest[k - 1], by simp [operandOfList, List.getElem?_eq_getElem (show k - 1 < rest.length by omega)]⟩

theorem operandOfList_missing (rest : List Word) :
    operandOfList rest (rest.length + 1) = .error (.missingOperand (rest.length + 1)) := by
  simp [operandOfList]

/-- With enough words after the selector, the instruction has that selector and takes as many operand words
as the selector's arity. -/
theorem decode_cons_ok {sel : Word} {rest : List Word} (h : arity sel ≤ rest.length) :
    ∃ i, decode (sel :: rest) = .ok (i, rest.drop (arity sel)) ∧
      i.selector = sel ∧ i.length = 1 + arity sel := by
  obtain ⟨i, hi⟩ := (decodeOperands_format sel (operandOfList rest)).ok fun _ h1 hk =>
    operandOfList_ok h1 (hk.trans h)
  obtain ⟨hwf, rfl, -⟩ := Machine.decodeOperands_ok hi
  exact ⟨i, by simp [decode, hi], rfl, by rw [Instr.length, arity_selector hwf]⟩

/-- With too few words after the selector, the first missing one is the answer. -/
theorem decode_cons_missing {sel : Word} {rest : List Word} (h : rest.length < arity sel) :
    decode (sel :: rest) = .error (.missingOperand (rest.length + 1)) := by
  have hd := (decodeOperands_format sel (operandOfList rest)).error (Nat.le_add_left 1 _) h
    (fun _ h1 hj => operandOfList_ok h1 (Nat.le_of_lt_succ hj)) (operandOfList_missing rest)
  simp [decode, hd]

/-- Settles O8: the list is the opcode map on 22 words; the rest holds because every selector decodes in the
format of its arity, and a format reads its operand words in order. -/
theorem lengthFromSelectorAlone : Obligations.LengthFromSelectorAlone :=
  ⟨by decide, fun _ _ => ⟨decode_cons_ok, decode_cons_missing, arity_ge_22⟩⟩

end Sys2Proof
end

section
/-! What an operand word resolves to and which register it names (30_encoding.md R54, R57, R58), one rule
per class. -/

namespace Sys2Proof.Machine

section

variable (s : State) {w : Word}

theorem literalWord_resolves (h : w.toNat ≤ 32767) :
    ∃ v : Value, Operand.ofWord w = .literal v ∧ v.toNat = w.toNat ∧
      resolve s (.ofWord w) = some v ∧ dest (.ofWord w) = none := by
  have hv : (w.setWidth 15).toNat = w.toNat := by
    rw [BitVec.toNat_setWidth, Nat.mod_eq_of_lt (by omega)]
  rw [Operand.ofWord_literal h]
  exact ⟨w.setWidth 15, rfl, hv, resolve_literal _, dest_literal _⟩

theorem registerWord_resolves (h₁ : 32768 ≤ w.toNat) (h₂ : w.toNat ≤ 32775) :
    ∃ i : RegIdx, Operand.ofWord w = .register i ∧ i.val = w.toNat - 32768 ∧
      resolve s (.ofWord w) = some (s.getReg i) ∧ dest (.ofWord w) = some i := by
  have hi : (Fin.ofNat 8 (w.toNat - 32768)).val = w.toNat - 32768 := by
    rw [Fin.val_ofNat, Nat.mod_eq_of_lt (by omega)]
  rw [Operand.ofWord_register h₁ h₂]
  exact ⟨Fin.ofNat 8 (w.toNat - 32768), rfl, hi, resolve_register _, dest_register _⟩

theorem invalidWord_resolves (h : 32776 ≤ w.toNat) :
    Operand.ofWord w = .invalid w ∧ resolve s (.ofWord w) = none ∧ dest (.ofWord w) = none := by
  rw [Operand.ofWord_invalid h]
  exact ⟨rfl, resolve_invalid w, dest_invalid w⟩

end

/-- Settles O10: the rules of the three classes of words. -/
theorem operandWordsResolveByClass : Obligations.OperandWordsResolveByClass :=
  fun s _ => ⟨literalWord_resolves s, fun ⟨h₁, h₂⟩ => registerWord_resolves s h₁ h₂,
    invalidWord_resolves s⟩

end Sys2Proof.Machine
end

section
/-! A step on a selector word of 21 or more (41_system.md R80, R81). The decoder asks its reader for no operand
word, so the step turns on the cell at pc alone. -/

namespace Sys2Proof

/-- The selectors from 21 on decode to the two instructions without effect, whatever the reader answers. -/
theorem decodeOperands_ge_21 {ε : Type} {sel : Word} (h : 21 ≤ sel.toNat) (rd : Nat → Except ε Word) :
    ∃ i, decodeOperands sel rd = .ok i ∧ (i = .noop ∨ ∃ w, i = .unassigned w) := by
  rcases Nat.eq_or_lt_of_le h with h21 | h22
  · obtain rfl : sel = 21#16 := BitVec.eq_of_toNat_eq h21.symm
    exact ⟨.noop, rfl, .inl rfl⟩
  · exact ⟨.unassigned sel, decodeOperands_ge_22 h22 rd, .inr ⟨sel, rfl⟩⟩

namespace Machine

section

variable {s : State} {i : Instr}

/-- A Running machine runs the instruction it fetches (40_engine.md R66). -/
theorem step_of_fetch_ok (hrun : s.run = .running) (hf : fetch s = .ok i) : step s = exec i s := by
  simp only [step, hrun, hf]

theorem exec_noop_or_unassigned (h : i = .noop ∨ ∃ w, i = .unassigned w) :
    exec i s = .next (s.advance 1) := by
  obtain rfl | ⟨w, rfl⟩ := h
  · rfl
  · rfl

end

/-- Advancing pc keeps everything else. -/
theorem State.advance_controlEffect (s : State) (n : Nat) :
    ControlEffect (s.pc + n) s.stack s (s.advance n) where
  pc := s.advance_pc n
  stack := s.advance_stack n
  regs := s.getReg_advance n
  cells _ := congrArg (Memory.cell · _) (s.advance_mem n)
  status := ⟨s.advance_run n, s.advance_fault n⟩
  input := ⟨s.advance_inbuf n, s.advance_snap n, s.advance_lines n, s.advance_cap n⟩
  output := s.advance_outlog n

/-- Settles O19: the word fetched at pc decodes with no cell after it read, to an instruction that only
advances pc. -/
theorem selectorsFromTwentyOneStepByOneWord : Obligations.SelectorsFromTwentyOneStepByOneWord := by
  intro s sel hrun hpc hcell hsel
  obtain ⟨i, hdecode, hi⟩ := decodeOperands_ge_21 hsel (operandAt s)
  have hfetch : fetch s = .ok i := fetch_eq_ok.mpr ⟨sel, memRead_eq_ok.mpr ⟨hpc, hcell⟩, hdecode⟩
  have hstep : step s = .next (s.advance 1) :=
    (step_of_fetch_ok hrun hfetch).trans (exec_noop_or_unassigned hi)
  exact ⟨s.advance 1, hstep, s.advance_controlEffect 1⟩

end Machine
end Sys2Proof
end

section
/-! Encoding and decoding invert each other (30_encoding.md). Both directions go through the decoder's rows: a
row whose reader answers the words of an instruction's operands gives that instruction back. -/

namespace Sys2Proof

section

variable {ε : Type} {rd : Nat → Except ε Word} {a b c : Operand}

theorem decodeF1_toWord {mk : Operand → Instr} (ha : a.wf = true) (h₁ : rd 1 = .ok a.toWord) :
    decodeF1 rd mk = .ok (mk a) :=
  decodeF1_ok.mpr ⟨_, h₁, by rw [Operand.ofWord_toWord ha]⟩

theorem decodeF2_toWord {mk : Operand → Operand → Instr} (ha : a.wf = true) (hb : b.wf = true)
    (h₁ : rd 1 = .ok a.toWord) (h₂ : rd 2 = .ok b.toWord) : decodeF2 rd mk = .ok (mk a b) :=
  decodeF2_ok.mpr ⟨_, _, h₁, h₂, by rw [Operand.ofWord_toWord ha, Operand.ofWord_toWord hb]⟩

theorem decodeF3_toWord {mk : Operand → Operand → Operand → Instr} (ha : a.wf = true)
    (hb : b.wf = true) (hc : c.wf = true) (h₁ : rd 1 = .ok a.toWord) (h₂ : rd 2 = .ok b.toWord)
    (h₃ : rd 3 = .ok c.toWord) : decodeF3 rd mk = .ok (mk a b c) :=
  decodeF3_ok.mpr ⟨_, _, _, h₁, h₂, h₃, by
    rw [Operand.ofWord_toWord ha, Operand.ofWord_toWord hb, Operand.ofWord_toWord hc]⟩

/-- A reader that answers an instruction's operand words makes the decoder give the instruction back. -/
theorem decodeOperands_selector {i : Instr} (hwf : i.wf = true)
    (hrd : ∀ (k : Nat) (p : Role × Operand), i.operands[k]? = some p → rd (k + 1) = .ok p.2.toWord) :
    decodeOperands i.selector rd = .ok i := by
  have hops (k : Nat) (p : Role × Operand) (hp : i.operands[k]? = some p) : p.2.wf = true :=
    Machine.wf_operand hwf (List.mem_of_getElem? hp)
  cases i with
  | halt | ret | noop => rfl
  | unassigned sel =>
    have h22 : 22 ≤ sel.toNat := by simpa [Instr.wf, Instr.selectorWf, Instr.operands] using hwf
    exact decodeOperands_ge_22 h22 rd
  | push | pop | jmp | call | out | inp => exact decodeF1_toWord (hops 0 _ rfl) (hrd 0 _ rfl)
  | set | jt | jf | not | rmem | wmem =>
    exact decodeF2_toWord (hops 0 _ rfl) (hops 1 _ rfl) (hrd 0 _ rfl) (hrd 1 _ rfl)
  | eq | gt | add | mult | mod | and | or =>
    exact decodeF3_toWord (hops 0 _ rfl) (hops 1 _ rfl) (hops 2 _ rfl) (hrd 0 _ rfl) (hrd 1 _ rfl)
      (hrd 2 _ rfl)

end

/-! ## Lists of words -/

theorem operandOfList_eq_ok {ws : List Word} {k : Nat} {w : Word} :
    operandOfList ws (k + 1) = .ok w ↔ ws[k]? = some w := by
  unfold operandOfList
  cases h : ws[k]? <;> simp [h]

theorem decode_encode_append {i : Instr} (rest : List Word) (h : i.wf = true) :
    decode (encode i ++ rest) = .ok (i, rest) := by
  have hrd : decodeOperands i.selector (operandOfList (i.operands.map (·.2.toWord) ++ rest)) = .ok i :=
    decodeOperands_selector h fun k p hp => operandOfList_eq_ok.mpr (by
      rw [List.getElem?_append_left (by simpa using (List.getElem?_eq_some_iff.mp hp).1),
        List.getElem?_map, hp, Option.map_some])
  simp [encode, decode, hrd, arity_selector h]

/-- The words an instruction was read from: its own words, then the words left. -/
theorem decode_eq_ok {ws rest : List Word} {i : Instr} (h : decode ws = .ok (i, rest)) :
    i.wf = true ∧ encode i ++ rest = ws := by
  cases ws with
  | nil => cases h
  | cons sel tl =>
    simp only [decode] at h
    split at h <;> cases h
    obtain ⟨hwf, rfl, hops⟩ := Machine.decodeOperands_ok ‹_›
    have hwords : i.operands.map (·.2.toWord) = tl.take i.operands.length := by
      apply List.ext_getElem?
      intro k
      by_cases hk : k < i.operands.length
      · obtain ⟨w, hw, hp⟩ := hops k i.operands[k] (List.getElem?_eq_getElem hk)
        rw [List.getElem?_map, List.getElem?_eq_getElem hk, Option.map_some, hp, Operand.toWord_ofWord,
          List.getElem?_take_of_lt hk, operandOfList_eq_ok.mp hw]
      · rw [List.getElem?_eq_none (by simpa using hk), List.getElem?_eq_none (by simp; omega)]
    exact ⟨hwf, by simp [encode, hwords, arity_selector hwf]⟩

/-- Settles O5: the reader of the words after the selector answers each operand's word, and as many words are
dropped as the instruction has operands. -/
theorem decodeInvertsEncode : Obligations.DecodeInvertsEncode :=
  fun _ rest h => decode_encode_append rest h

/-- Settles O6: the operands' words are the words read at their positions. -/
theorem encodeInvertsDecode : Obligations.EncodeInvertsDecode :=
  fun _ _ _ h => decode_eq_ok h

/-- Settles O9: each list is the encoding of its instruction, followed by what is left. -/
theorem decodesWordsOfTheSpec : Obligations.DecodesWordsOfTheSpec :=
  ⟨decode_encode_append (i := .add (.register 0) (.literal 4#15) (.literal 5#15)) [] rfl,
    decode_encode_append (i := .set (.register 3) (.literal 1234#15)) [] rfl,
    decode_encode_append (i := .pop (.register 1)) [] rfl,
    decode_encode_append (i := .jt (.register 0) (.invalid 40000#16)) [] rfl,
    decode_encode_append (i := .wmem (.register 0) (.register 1)) [] rfl,
    decode_encode_append (i := .inp (.register 7)) [] rfl,
    decode_encode_append (i := .ret) [] rfl,
    decode_encode_append (i := .unassigned 32768#16) [7#16] rfl⟩

end Sys2Proof
end

section
/-! The rows of the opcode table tile the 16-bit words (30_encoding.md R60): each row covers an interval, the
intervals follow each other without gap or overlap, so a word is in exactly one of them. -/

namespace Sys2Proof

/-- The first number past a row's words, for a mask of leading ones. -/
def OpcodeRow.bound (r : OpcodeRow) : Nat :=
  r.pat.toNat + (65536 - r.mask.toNat)

/-- The mask is leading ones, and the pattern has no bit outside it. -/
def OpcodeRow.aligned (r : OpcodeRow) : Bool :=
  (List.range 16).any (fun k => r.mask == 65535#16 <<< k) && r.pat &&& r.mask == r.pat

/-- The rows' intervals follow each other from `a` up to `b`. -/
def tiles (a b : Nat) : List OpcodeRow → Bool
  | [] => a == b
  | r :: rs => r.pat.toNat == a && decide (a < r.bound) && tiles r.bound b rs

/-- Masking with leading ones clears the low bits. -/
theorem and_leadingOnes {n : Nat} (w : BitVec n) (k : Nat) :
    w &&& BitVec.allOnes n <<< k = (w >>> k) <<< k := by
  ext j hj
  by_cases hlt : j < k
  · simp [hlt]
  · simp [hlt, show k + (j - k) = j by omega, hj]

theorem toNat_and_leadingOnes (w : Word) (k : Nat) :
    (w &&& 65535#16 <<< k).toNat = w.toNat / 2 ^ k * 2 ^ k := by
  rw [show 65535#16 = BitVec.allOnes 16 from rfl, and_leadingOnes, BitVec.toNat_shiftLeft,
    BitVec.toNat_ushiftRight, Nat.shiftRight_eq_div_pow, Nat.shiftLeft_eq,
    Nat.mod_eq_of_lt ((Nat.div_mul_le_self _ _).trans_lt w.isLt)]

theorem OpcodeRow.covers_iff {r : OpcodeRow} (h : r.aligned = true) (w : Word) :
    r.covers w = true ↔ r.pat.toNat ≤ w.toNat ∧ w.toNat < r.bound := by
  simp only [OpcodeRow.aligned, Bool.and_eq_true, List.any_eq_true, List.mem_range, beq_iff_eq] at h
  obtain ⟨⟨k, hk, hmask⟩, hpat⟩ := h
  have hp := congrArg BitVec.toNat hpat
  simp only [OpcodeRow.covers, beq_iff_eq, OpcodeRow.bound, BitVec.toNat_eq, hmask,
    toNat_and_leadingOnes] at hp ⊢
  clear hpat hmask
  interval_cases k <;> simp <;> omega

/-- A word below the first interval is in none. -/
theorem filter_covers_of_lt {rs : List OpcodeRow} {a b : Nat} {w : Word}
    (ht : tiles a b rs = true) (hal : ∀ r ∈ rs, r.aligned = true) (hw : w.toNat < a) :
    rs.filter (·.covers w) = [] := by
  induction rs generalizing a with
  | nil => rfl
  | cons r rs ih =>
    simp only [tiles, Bool.and_eq_true, beq_iff_eq, decide_eq_true_eq] at ht
    obtain ⟨⟨ha, hb⟩, ht⟩ := ht
    have hr := r.covers_iff (w := w) (hal r (by simp))
    rw [List.filter_cons_of_neg (by rw [hr]; omega),
      ih ht (fun r hr => hal r (List.mem_cons_of_mem _ hr)) (by omega)]

/-- A word between the ends of the intervals is in exactly one of them. -/
theorem filter_covers_singleton {rs : List OpcodeRow} {a b : Nat} {w : Word}
    (ht : tiles a b rs = true) (hal : ∀ r ∈ rs, r.aligned = true) (ha : a ≤ w.toNat)
    (hb : w.toNat < b) : ∃ r, rs.filter (·.covers w) = [r] := by
  induction rs generalizing a with
  | nil =>
    simp only [tiles, beq_iff_eq] at ht
    omega
  | cons r rs ih =>
    simp only [tiles, Bool.and_eq_true, beq_iff_eq, decide_eq_true_eq] at ht
    obtain ⟨⟨hpat, hlt⟩, ht⟩ := ht
    have hrs : ∀ r ∈ rs, r.aligned = true := fun r hr => hal r (List.mem_cons_of_mem _ hr)
    have hr := r.covers_iff (w := w) (hal r (by simp))
    by_cases hw : w.toNat < r.bound
    · exact ⟨r, by
        rw [List.filter_cons, if_pos (hr.mpr ⟨by omega, hw⟩), filter_covers_of_lt ht hrs hw]⟩
    · rw [List.filter_cons_of_neg (by rw [hr]; omega)]
      exact ih ht hrs (by omega)

theorem opcodeTable_aligned : ∀ r ∈ opcodeTable, r.aligned = true := by decide

theorem opcodeTable_tiles : tiles 0 65536 opcodeTable = true := by decide

theorem assignedRows_length :
    ∀ r ∈ assignedRows, r.mask = 65535#16 ∧ r.length = 1 + arity r.pat := by decide

theorem unassignedRows_length : ∀ r ∈ unassignedRows, 22 ≤ r.pat.toNat ∧ r.length = 1 := by decide

/-- The length of a covering row is the one the decoder uses. -/
theorem length_of_covers {r : OpcodeRow} {w : Word} (hr : r ∈ opcodeTable) (hc : r.covers w = true) :
    r.length = 1 + arity w := by
  rcases List.mem_append.mp hr with h | h
  · obtain ⟨hmask, hlen⟩ := assignedRows_length r h
    have hw : w &&& 65535#16 = r.pat := by simpa [OpcodeRow.covers, hmask] using hc
    have hw : w = r.pat := by rwa [show 65535#16 = BitVec.allOnes 16 from rfl, BitVec.and_allOnes] at hw
    rw [hlen, hw]
  · obtain ⟨hpat, hlen⟩ := unassignedRows_length r h
    have hle := ((r.covers_iff (opcodeTable_aligned r hr) w).mp hc).1
    rw [hlen, arity_ge_22 (hpat.trans hle)]

/-- Settles O7: the table's rows tile the words from 0 to 65535. -/
theorem everySelectorInExactlyOneRow : Obligations.EverySelectorInExactlyOneRow := by
  intro w
  obtain ⟨r, hr⟩ := filter_covers_singleton opcodeTable_tiles opcodeTable_aligned (Nat.zero_le _) w.isLt
  obtain ⟨hmem, hc⟩ := List.mem_filter.mp (hr ▸ List.mem_singleton_self r)
  exact ⟨r, hr, length_of_covers hmem hc⟩

end Sys2Proof
end

section
/-! The image at construction (70_reset_and_hazards.md R137 to R139). -/

namespace Sys2Proof.Machine

open Sys2Proof.Config

/-- Word k of an image loaded at `a` is in cell a + k, and the cells after the image are `UNINIT`. -/
theorem Memory.cell_ofImage (ws : List Word) (a k : Nat) :
    Memory.cell (Memory.ofImage a ws) (a + k) = ws[k]? := by
  induction ws generalizing a k with
  | nil => rfl
  | cons w ws ih =>
    cases k with
    | zero => simp [Memory.ofImage, Memory.cell]
    | succ k =>
      have hcell : Memory.cell (Memory.ofImage (a + 1) ws) (a + (k + 1)) = ws[k]? := by
        rw [Nat.add_comm k, ← Nat.add_assoc]
        exact ih (a + 1) k
      simp [Memory.ofImage, Memory.cell, hcell]

/-- Settles O2: memory is the image loaded at 0, and every other field is what reset holds. -/
theorem bootLeavesResetValues : Obligations.BootLeavesResetValues := by
  intro image cap lines _
  have hcell (k : Nat) : Memory.cell (State.boot image cap lines).mem k = image[k]? := by
    simpa [State.boot] using Memory.cell_ofImage image 0 k
  exact ⟨hcell, rfl, rfl, rfl, rfl, rfl, rfl⟩

/-! ## Files -/

/-- A file of an even number of bytes is read as pairs. -/
theorem pairBytes_even :
    ∀ {bytes : List Byte}, bytes.length % 2 = 0 → ∃ image, pairBytes bytes = some image
  | [], _ => ⟨[], rfl⟩
  | [_], h => by simp at h
  | lo :: hi :: rest, h => by
    obtain ⟨image, himage⟩ := pairBytes_even (bytes := rest) ((Nat.add_mod_right _ 2).symm.trans h)
    exact ⟨_, by rw [pairBytes, himage, Option.map_some]⟩

theorem pairBytes_odd : ∀ {bytes : List Byte}, bytes.length % 2 = 1 → pairBytes bytes = none
  | [], h => by simp at h
  | [_], _ => rfl
  | lo :: hi :: rest, h => by
    rw [pairBytes, pairBytes_odd (bytes := rest) ((Nat.add_mod_right _ 2).symm.trans h),
      Option.map_none]

/-- The words are the bytes' pairs, the low byte first. -/
theorem pairBytes_littleEndian :
    ∀ {bytes : List Byte} {image : List Word}, pairBytes bytes = some image →
    2 * image.length = bytes.length ∧
      ∀ k (w : Word), image[k]? = some w → ∃ lo hi : Byte, bytes[2 * k]? = some lo ∧
        bytes[2 * k + 1]? = some hi ∧ w.toNat = lo.toNat + 256 * hi.toNat
  | [], _, h => by
    cases h
    simp
  | [_], _, h => by cases h
  | lo :: hi :: rest, _, h => by
    obtain ⟨ws, hws, rfl⟩ := Option.map_eq_some_iff.mp h
    obtain ⟨hlen, hwords⟩ := pairBytes_littleEndian hws
    refine ⟨by simp [← hlen, Nat.mul_add], fun k w hk => ?_⟩
    cases k with
    | zero =>
      obtain rfl : _ = w := Option.some.inj hk
      refine ⟨lo, hi, rfl, rfl, ?_⟩
      rw [BitVec.toNat_ofNat, Nat.mod_eq_of_lt (by omega)]
    | succ k => exact hwords k w hk

/-- A file that fits in memory is read as pairs, and a longer one gives no image. -/
theorem assembleImage_eq (bytes : List Byte) :
    assembleImage bytes = if bytes.length ≤ 131072 then pairBytes bytes else none := rfl

/-- Settles O4: the words of a file are its byte pairs, for an even number of bytes within the limit. -/
theorem imageIsLittleEndianPairs : Obligations.ImageIsLittleEndianPairs := by
  refine fun bytes => ⟨fun ⟨heven, hle⟩ => ?_, fun h => ?_⟩
  · obtain ⟨image, himage⟩ := pairBytes_even heven
    exact ⟨image, by rw [assembleImage_eq, if_pos hle, himage], pairBytes_littleEndian himage⟩
  · rw [assembleImage_eq]
    split
    · exact pairBytes_odd (by omega)
    · rfl

end Sys2Proof.Machine
end

section
/-! The machine's invariant (10_state.md, 60_exceptions.md R126 to R132): it holds after reset, every update of
the state that an instruction makes keeps it under the update's own condition, and so every step does. -/

namespace Sys2Proof.Machine

open Sys2Proof.Config

/-! ## Reset -/

theorem State.boot_inv {image : List Word} {cap : StackCapacity} {lines : List Line}
    (himage : image.length ≤ 65536) (hcap : cap.wf = true) (hlines : ∀ l ∈ lines, lineOk l = true) :
    (State.boot image cap lines).Inv where
  mem := Memory.wf_ofImage ((Nat.zero_add _).trans_le himage)
  pc := Nat.zero_le _
  cap := hcap
  stack := by
    cases cap with
    | unbounded => rfl
    | entries c => exact decide_eq_true (Nat.zero_le c)
  record := ⟨nofun, nofun⟩
  recordOk := nofun
  inbuf := rfl
  lines := hlines
  snap := nofun

/-- Settles O52: construction zeroes all that the invariant bounds, and memory is the image. -/
theorem resetMeetsInvariant : Obligations.ResetMeetsInvariant :=
  ⟨State.boot_inv (image := []) (cap := .unbounded) (lines := []) (by simp) rfl (by simp),
    fun _ _ _ => State.boot_inv⟩

/-! ## Input -/

theorem inbufOk_tail {b : Byte} {rest : List Byte} (h : inbufOk (b :: rest) = true) :
    inbufOk rest = true := by
  cases rest with
  | nil => rfl
  | cons c rest =>
    simp only [inbufOk, Bool.and_eq_true] at h
    exact h.2

theorem inbufOk_append_newline {l : Line} (h : lineOk l = true) : inbufOk (l ++ [newline]) = true := by
  induction l with
  | nil => rfl
  | cons b l ih =>
    simp only [lineOk, List.all_cons, Bool.and_eq_true] at h
    have htl := ih h.2
    cases l <;> simp_all [inbufOk]

/-- What is left in the buffer after a line's first byte is given. -/
theorem inbufOk_refill {l : Line} (h : lineOk l = true) : inbufOk (refill l).2 = true := by
  cases l with
  | nil => rfl
  | cons b l => exact inbufOk_tail (inbufOk_append_newline h)

/-! ## Updates -/

section

variable {s : State} (hs : s.Inv)
include hs

theorem State.Inv.fault_eq_none (hrun : s.run = .running) : s.fault = none := by
  have hrec := hs.record
  cases hf : s.fault with
  | none => rfl
  | some r => simp [hrun, hf] at hrec

/-- A fault's record is well formed when its info fits and only a fetch fault has no opcode. -/
theorem State.Inv.raise {o : Option Word} {c : Cause} (hfits : c.info.fits c.kind = true)
    (ho : o.isSome = true ∨ c.kind = .uninitialisedRead ∨ c.kind = .addressOutOfRange) :
    (s.raise o c).Inv :=
  { hs with
    record := by simp
    recordOk := by
      rintro r ⟨⟩
      refine ⟨?_, rfl⟩
      rcases ho with ho | ho | ho <;> simp_all [FaultRecord.wf] }

theorem State.Inv.halt (hrun : s.run = .running) : s.halt.Inv :=
  { hs with record := by simp [hs.fault_eq_none hrun] }

theorem State.Inv.setReg (d : RegIdx) (v : Value) : (s.setReg d v).Inv :=
  { hs with }

/-- pc moves only without a record, which names the pc. -/
theorem State.Inv.setPc {n : Nat} (hrun : s.run = .running) (hn : n ≤ memWords) : (s.setPc n).Inv :=
  { hs with
    pc := hn
    recordOk := by simp [hs.fault_eq_none hrun] }

theorem State.Inv.pushed (v : Value) (hroom : s.stackFull = false) : (s.pushed v).Inv :=
  { hs with stack := stackFits_pushed hs.stack hroom }

theorem State.Inv.popped : s.popped.Inv :=
  { hs with stack := stackFits_popped hs.stack }

theorem State.Inv.memWrite {a : Nat} (ha : a < memWords) (w : Word) : (s.memWrite a w).Inv :=
  { hs with mem := Memory.wf_write hs.mem ha w }

theorem State.Inv.emit (b : Byte) : (s.emit b).Inv :=
  { hs with }

theorem State.Inv.setInbuf {bs : List Byte} (hbs : inbufOk bs = true) : (s.setInbuf bs).Inv :=
  { hs with inbuf := hbs }

theorem State.Inv.setLines {ls : List Line} (hls : ∀ l ∈ ls, lineOk l = true) : (s.setLines ls).Inv :=
  { hs with lines := hls }

theorem State.Inv.deliverLine {l : Line} (hl : lineOk l = true) : (s.deliverLine l).Inv :=
  hs.setLines (List.forall_mem_append.mpr ⟨hs.lines, by simpa using hl⟩)

/-- A save at an `in` fills the slot with a snapshot at that `in`. -/
theorem State.Inv.saveSnapshot (hin : Memory.cell s.mem s.pc = some 20#16) : s.saveSnapshot.Inv :=
  { hs with
    snap := by
      rintro sn ⟨⟩
      exact ⟨hs.mem, hin⟩ }

/-- A load takes memory and pc from a snapshot, whose pc is in its memory. -/
theorem State.Inv.restore {sn : Snapshot} (hrun : s.run = .running) (hsn : sn.Ok) : (s.restore sn).Inv :=
  { hs with
    mem := hsn.mem
    pc := (Memory.lt_of_cell hsn.mem hsn.atIn).le
    recordOk := by simp [hs.fault_eq_none hrun] }

end

/-! ## The step -/

theorem value_le_memWords (v : Value) : v.toNat ≤ memWords :=
  v.isLt.le.trans (by decide)

/-- A failing `MemRead` is one of the two faults a fetch can raise. -/
theorem memRead_error_kind {m : Memory} {a : Nat} {c : Cause} (h : memRead m a = .error c) :
    c.kind = .uninitialisedRead ∨ c.kind = .addressOutOfRange := by
  rcases memRead_eq_error.mp h with ⟨-, rfl⟩ | ⟨-, -, rfl⟩
  · exact .inr rfl
  · exact .inl rfl

/-- An instruction fetched on a Running machine keeps the invariant. -/
theorem ExecEffect.inv {i : Instr} {s t : State} (h : ExecEffect i s t) (hs : s.Inv)
    (hrun : s.run = .running) (hf : fetch s = .ok i) : t.Inv := by
  obtain ⟨hwf, hcell, hlen⟩ := fetch_ok hf
  have hsrc (v : Value) {u : State} (hu : u.Inv) (hr : u.run = .running) : (u.setPc v.toNat).Inv :=
    hu.setPc hr (value_le_memWords v)
  cases h with
  | raised c fits => exact hs.raise (fits hwf hs.cap) (.inl rfl)
  | noSnapshot _ l ls _ _ lines _ =>
    exact (hs.setLines (List.forall_mem_cons.mp (lines ▸ hs.lines)).2).raise rfl (.inl rfl)
  | halted => exact hs.halt hrun
  | advanced => exact hs.setPc hrun hlen
  | register d v => exact (hs.setReg d v).setPc hrun hlen
  | pop d _ v instr =>
    subst instr
    exact (hs.popped.setReg d v).setPc hrun hlen
  | push _ v instr room =>
    subst instr
    exact (hs.pushed v room).setPc hrun hlen
  | call _ v r _ _ room => exact hsrc v (hs.pushed r room) hrun
  | ret _ v => exact hsrc v hs.popped hrun
  | jmp _ v => exact hsrc v hs hrun
  | jt _ _ _ vb instr | jf _ _ _ vb instr =>
    subst instr
    refine hs.setPc hrun ?_
    split
    · exact value_le_memWords vb
    · exact hlen
  | wmem _ _ va vb instr =>
    subst instr
    exact (hs.memWrite (va.isLt.trans (by decide)) _).setPc hrun hlen
  | out _ b instr =>
    subst instr
    exact (hs.emit b).setPc hrun hlen
  | byte d b rest instr buf =>
    subst instr
    exact ((hs.setInbuf (inbufOk_tail (buf ▸ hs.inbuf))).setReg d _).setPc hrun hlen
  | line d l ls instr _ lines =>
    subst instr
    have hls := List.forall_mem_cons.mp (lines ▸ hs.lines)
    exact (((hs.setLines hls.2).setInbuf (inbufOk_refill hls.1)).setReg d _).setPc hrun hlen
  | save _ l ls instr _ lines =>
    subst instr
    exact (hs.setLines (List.forall_mem_cons.mp (lines ▸ hs.lines)).2).saveSnapshot hcell
  | load _ l ls sn _ _ lines _ slot =>
    exact (hs.setLines (List.forall_mem_cons.mp (lines ▸ hs.lines)).2).restore hrun (hs.snap sn slot)

/-- Every step keeps the invariant: a fetch fault's record fits, and so does what an instruction does. -/
theorem State.Inv.step {s t : State} (hs : s.Inv) (h : step s = .next t) : t.Inv := by
  obtain ⟨hrun, ⟨o, c, hf, rfl⟩ | ⟨i, hf, hi⟩⟩ := step_next h
  · obtain ⟨k, hk⟩ := fetch_error hf
    exact hs.raise (memRead_error_fits hk) (.inr (memRead_error_kind hk))
  · exact (exec_effect hi).inv hs hrun hf

/-- Settles O53: the step lemma, and a delivered line is one more line without the byte 10. -/
theorem stepKeepsInvariant : Obligations.StepKeepsInvariant :=
  ⟨fun _ _ hs h => hs.step h, fun _ _ hs hl => hs.deliverLine hl⟩

end Sys2Proof.Machine
end

section
/-! What an instruction can change (10_state.md R21, R26, R28, R30, R31; 20_memory.md R37 to R39; 40_engine.md
R75; 00_scope.md R7): each statement goes by the shapes of a next state. -/

namespace Sys2Proof.Machine

open Sys2Proof.Config

section

variable {i : Instr} {s t : State}

/-! ## Run states -/

/-- An instruction that faults raises a fault, at the state it started from or after taking a line. -/
theorem ExecEffect.faulted (h : ExecEffect i s t) (hrun : s.run = .running) (ht : t.run = .faulted) :
    (∃ c, t = s.raise (some i.selector) c) ∨
    (∃ l ls c, s.lines = l :: ls ∧ t = (s.setLines ls).raise (some i.selector) c) := by
  cases h with
  | raised c => exact .inl ⟨c, rfl⟩
  | noSnapshot o l ls instr buf lines => exact .inr ⟨l, ls, _, lines, rfl⟩
  | halted => cases ht
  | _ => exact absurd (hrun.symm.trans ht) (by decide)

/-- An instruction that halts is `halt`, or `ret` on the empty stack, and changes nothing else. -/
theorem ExecEffect.halted_run (h : ExecEffect i s t) (hrun : s.run = .running) (ht : t.run = .halted) :
    (i = .halt ∨ i = .ret ∧ s.stack = []) ∧ t = s.halt := by
  cases h with
  | halted instr => exact ⟨instr, rfl⟩
  | raised | noSnapshot => cases ht
  | _ => exact absurd (hrun.symm.trans ht) (by decide)

/-- An instruction after which the machine goes on leaves the record. -/
theorem ExecEffect.fault_of_running (h : ExecEffect i s t) (ht : t.run = .running) :
    t.fault = s.fault := by
  cases h with
  | halted | raised | noSnapshot => cases ht
  | _ => rfl

/-- Settles O59: by the run state of the next state. -/
theorem runStateWrittenOnlyByHaltRetAndFaults : Obligations.RunStateWrittenOnlyByHaltRetAndFaults := by
  intro i s t hrun hfault h
  have he := exec_effect h
  refine ⟨fun ht => ?_, fun ht => (he.fault_of_running ht).trans hfault, fun ht => ?_⟩
  · obtain ⟨hi, rfl⟩ := he.halted_run hrun ht
    exact ⟨hi, hfault⟩
  · rcases he.faulted hrun ht with ⟨c, rfl⟩ | ⟨_, _, c, -, rfl⟩
    · exact ⟨_, rfl, rfl, rfl⟩
    · exact ⟨_, rfl, rfl, rfl⟩

/-- A step that faults raises a fault at its own state, or with the line already taken. -/
theorem step_faulted (h : step s = .next t) (ht : t.run = .faulted) :
    ∃ o c ls, (ls = s.lines ∨ ∃ l, s.lines = l :: ls) ∧ t = (s.setLines ls).raise o c := by
  obtain ⟨hrun, ⟨o, c, -, rfl⟩ | ⟨i, -, hi⟩⟩ := step_next h
  · exact ⟨o, c, s.lines, .inl rfl, rfl⟩
  · rcases (exec_effect hi).faulted hrun ht with ⟨c, rfl⟩ | ⟨l, ls, c, hl, rfl⟩
    · exact ⟨_, c, s.lines, .inl rfl, rfl⟩
    · exact ⟨_, c, ls, .inr ⟨l, hl⟩, rfl⟩

/-- Settles O16: raising a fault writes the run state and the record only. -/
theorem faultingStepIsPrecise : Obligations.FaultingStepIsPrecise := by
  intro s t h ht
  obtain ⟨o, c, ls, hls, rfl⟩ := step_faulted h ht
  have he := (s.setLines ls).raise_faultEffect o c
  exact ⟨⟨_, he.record, rfl⟩, he.pc, he.stack, he.regs, he.cells, he.input.2.1, he.input.1, he.output,
    hls⟩

/-! ## pc -/

/-- An instruction that halts or faults leaves pc where it is (decisions D12, D13). -/
theorem ExecEffect.pc_of_stopped (h : ExecEffect i s t) (hrun : s.run = .running)
    (ht : t.run ≠ .running) : t.pc = s.pc := by
  cases htr : t.run with
  | running => exact absurd htr ht
  | halted => rw [(h.halted_run hrun htr).2, State.halt_pc]
  | faulted =>
    rcases h.faulted hrun htr with ⟨c, rfl⟩ | ⟨_, _, c, -, rfl⟩
    · rfl
    · rfl

/-- Settles O54: each shape of a next state fixes pc; a shape with a destination is one of the instructions
of the table's last row. -/
theorem pcAfterEachInstruction : Obligations.PcAfterEachInstruction := by
  intro i s t hrun h
  have he := exec_effect h
  refine ⟨he.pc_of_stopped hrun, fun ht => ?_⟩
  cases he with
  | raised | noSnapshot | halted => cases ht
  | advanced instr => obtain rfl | ⟨w, rfl⟩ := instr <;> rfl
  | register d v o rest operands names notIn =>
    cases i with
    | inp a => exact absurd rfl (notIn a)
    | set | pop | eq | gt | add | mult | mod | and | or | not | rmem => rfl
    | _ => simp [Instr.operands] at operands
  | pop d st v instr stack => subst instr; rfl
  | push a v instr => subst instr; rfl
  | call a v r instr src => subst instr; exact ⟨v, src, rfl⟩
  | ret st v instr stack => subst instr; exact ⟨st, v, stack, rfl⟩
  | jmp a v instr src => subst instr; exact ⟨v, src, rfl⟩
  | jt a b va vb instr srcA srcB => subst instr; exact ⟨va, vb, srcA, srcB, rfl⟩
  | jf a b va vb instr srcA srcB => subst instr; exact ⟨va, vb, srcA, srcB, rfl⟩
  | wmem a b va vb instr => subst instr; rfl
  | out a b instr => subst instr; rfl
  | byte d b rest instr => subst instr; exact .inl rfl
  | line d l ls instr => subst instr; exact .inl rfl
  | save d l ls instr buf lines test => subst instr; exact .inr (.inl ⟨l, ls, buf, lines, test, rfl⟩)
  | load d l ls sn instr buf lines test slot =>
    subst instr
    exact .inr (.inr ⟨l, ls, sn, buf, lines, test, slot, rfl⟩)

/-! ## Registers -/

/-- Writing a register changes no other one. -/
theorem State.eq_of_getReg_setReg_ne {d j : RegIdx} {v : Value}
    (h : (s.setReg d v).getReg j ≠ s.getReg j) : j = d :=
  not_imp_comm.mp (fun hj => s.getReg_setReg_ne hj v) h

/-- Settles O55: the shapes that write a register name it in their destination operand, and only a load
replaces the register file. -/
theorem registersWrittenOnlyByDestination : Obligations.RegistersWrittenOnlyByDestination := by
  intro i s t j h hj
  cases exec_effect h with
  | register d v o rest operands names =>
    exact .inl ⟨o, rest, operands, State.eq_of_getReg_setReg_ne hj ▸ names⟩
  | pop d st v instr =>
    subst instr
    exact .inl ⟨_, [], rfl, congrArg some (State.eq_of_getReg_setReg_ne (s := s.popped) hj).symm⟩
  | byte d b rest instr =>
    subst instr
    exact .inl ⟨_, [], rfl, congrArg some (State.eq_of_getReg_setReg_ne (s := s.setInbuf rest) hj).symm⟩
  | line d l ls instr =>
    subst instr
    exact .inl ⟨_, [], rfl, congrArg some
      (State.eq_of_getReg_setReg_ne (s := (s.setLines ls).setInbuf (refill l).2) hj).symm⟩
  | load d l ls sn instr buf lines test slot =>
    exact .inr ⟨_, l, ls, sn, instr, buf, lines, test, slot, rfl⟩
  | _ => exact absurd rfl hj

/-! ## Stack -/

/-- Settles O56: the four shapes that write the stack add or take its top entry. -/
theorem stackChangedOnlyByFour : Obligations.StackChangedOnlyByFour := by
  intro i s t h hst
  have htop (st : List Value) (v : Value) (hs : s.stack = st ++ [v]) :
      s.stack = s.popped.stack ++ [v] := by simp [hs]
  cases exec_effect h with
  | push a v instr => exact .inl ⟨.inl ⟨a, instr⟩, v, rfl⟩
  | call a v r instr => exact .inl ⟨.inr ⟨a, instr⟩, r, rfl⟩
  | pop d st v instr stack => exact .inr ⟨.inl ⟨_, instr⟩, v, htop st v stack⟩
  | ret st v instr stack => exact .inr ⟨.inr instr, v, htop st v stack⟩
  | _ => exact absurd rfl hst

/-! ## Memory -/

/-- A value in a cell is the same number (46_memory_access.md R104). -/
theorem toNat_valueWord (v : Value) : (v.setWidth 16).toNat = v.toNat := by
  rw [BitVec.toNat_setWidth, Nat.mod_eq_of_lt (v.isLt.trans (by decide))]

theorem value_le (v : Value) : v.toNat ≤ 32767 :=
  Nat.le_of_lt_succ v.isLt

/-- Settles O57: a write changes its own cell only, whose address and word are values, and only a load
replaces memory. -/
theorem cellsWrittenOnlyByWmemOrLoad : Obligations.CellsWrittenOnlyByWmemOrLoad := by
  intro i s t x h hx
  cases exec_effect h with
  | wmem a b va vb instr srcA =>
    obtain rfl : x = storeAddress va :=
      not_imp_comm.mp (fun hne => Memory.cell_write_ne s.mem (vb.setWidth 16) hne) hx
    exact .inl ⟨a, b, va, vb.setWidth 16, instr, srcA, rfl, value_le va, Memory.cell_write_self _ _ _,
      (toNat_valueWord vb).trans_le (value_le vb)⟩
  | load d l ls sn instr buf lines test slot =>
    exact .inr ⟨_, l, ls, sn, instr, buf, lines, test, slot, rfl⟩
  | _ => exact absurd rfl hx

/-- The slot keeps its contents or takes the memory, pc and registers of the moment. -/
theorem ExecEffect.snap_eq (h : ExecEffect i s t) :
    t.snap = s.snap ∨ t.snap = some { mem := s.mem, pc := s.pc, regs := s.regs } := by
  cases h with
  | save => exact .inr rfl
  | _ => exact .inl rfl

/-- Settles O58: a cell written by an instruction is below 32768 or comes from the slot, and the slot's memory
is the old one or a copy of memory. -/
theorem upperCellsNeverWritten : Obligations.UpperCellsNeverWritten := by
  intro u s t hmem hsnap h
  obtain ⟨-, ⟨o, c, -, rfl⟩ | ⟨i, -, hi⟩⟩ := step_next h
  · exact ⟨hmem, hsnap⟩
  refine ⟨fun x hx => ?_, fun sn hsn => ?_⟩
  · by_cases hsame : Memory.cell t.mem x = Memory.cell s.mem x
    · exact hsame.trans (hmem x hx)
    · rcases cellsWrittenOnlyByWmemOrLoad i s t x hi hsame with
        ⟨_, _, _, _, -, -, -, hle, -⟩ | ⟨_, _, _, sn, -, -, -, -, hslot, htm⟩
      · omega
      · exact htm ▸ hsnap sn hslot x hx
  · rcases (exec_effect hi).snap_eq with e | e
    · exact hsnap sn (e.symm.trans hsn)
    · cases e.symm.trans hsn
      exact hmem

/-! ## Devices -/

theorem ExecEffect.outlog_changed (h : ExecEffect i s t) (ho : t.outlog ≠ s.outlog) :
    (∃ a, i = .out a) ∧ ∃ b, t.outlog = s.outlog ++ [b] := by
  cases h with
  | out a b instr => exact ⟨⟨a, instr⟩, b, rfl⟩
  | _ => exact absurd rfl ho

theorem ExecEffect.input_changed (h : ExecEffect i s t)
    (hin : t.inbuf ≠ s.inbuf ∨ t.snap ≠ s.snap ∨ t.lines ≠ s.lines) : ∃ a, i = .inp a := by
  cases h with
  | noSnapshot _ _ _ instr | byte _ _ _ instr | line _ _ _ instr | save _ _ _ instr
  | load _ _ _ _ instr => exact ⟨_, instr⟩
  | _ => exact absurd hin (by simp)

theorem ExecEffect.cap_eq (h : ExecEffect i s t) : t.cap = s.cap := by
  cases h <;> rfl

/-- Settles O60: only the shape of `out` writes OUT, and only those of `in` the input side. -/
theorem devicesChangedOnlyByOutAndIn : Obligations.DevicesChangedOnlyByOutAndIn :=
  fun _ _ _ h => ⟨(exec_effect h).outlog_changed, (exec_effect h).input_changed, (exec_effect h).cap_eq⟩

end

end Sys2Proof.Machine
end

section
/-! One equation per instruction and outcome (41_system.md to 47_io.md): what `exec` answers when the operands
have values. With the effects of the updates below, each rule of the instructions is one of them. -/

namespace Sys2Proof.Machine

open Sys2Proof.Config

/-! ## Effects of the updates -/

theorem State.halt_haltEffect (s : State) : HaltEffect s s.halt where
  run := rfl
  fault := rfl
  pc := rfl
  stack := rfl
  regs _ := rfl
  cells _ := rfl
  input := ⟨rfl, rfl, rfl, rfl⟩
  output := rfl

/-- A control transfer writes pc and the stack. -/
theorem State.setPc_controlEffect (s : State) (st : List Value) (n : Nat) :
    ControlEffect n st s ({ s with stack := st }.setPc n) where
  pc := rfl
  stack := rfl
  regs _ := rfl
  cells _ := rfl
  status := ⟨rfl, rfl⟩
  input := ⟨rfl, rfl, rfl, rfl⟩
  output := rfl

section

variable {s : State} {r : Result} {a b c : Operand} {va vb vc v : Value} {d : RegIdx} {sel : Word}

theorem registerEffect_of_eq {n len : Nat} (hr : r = writeBack d v len s) (hn : v.toNat = n) :
    ∃ t, r = .next t ∧ RegisterEffect d n len s t :=
  hr ▸ hn ▸ writeBack_registerEffect d v len s

theorem faultEffect_of_eq {kind : FaultKind} {info : FaultInfo} (hr : r = raiseAt sel kind info s) :
    ∃ t, r = .next t ∧ FaultEffect (some sel) kind info s t :=
  ⟨_, hr, s.raise_faultEffect (some sel) ⟨kind, info⟩⟩

/-! ## System instructions and set -/

/-- Settles O17: halting writes the run state only. -/
theorem haltStopsAtItsAddress : Obligations.HaltStopsAtItsAddress :=
  fun s => ⟨s.halt, rfl, s.halt_haltEffect⟩

/-- Settles O18: both instructions are an advance by one word. -/
theorem noopAndUnassignedOnlyAdvance : Obligations.NoopAndUnassignedOnlyAdvance :=
  fun s _ => ⟨⟨s.advance 1, rfl, s.advance_controlEffect 1⟩,
    ⟨s.advance 1, rfl, s.advance_controlEffect 1⟩⟩

theorem exec_set (hb : resolve s b = some vb) :
    exec (.set (.register d) b) s = writeBack d vb 3 s :=
  withSrc_some hb _

/-- Settles O20: set writes back its source's value. -/
theorem setWritesResolvedSource : Obligations.SetWritesResolvedSource :=
  fun _ _ _ _ hb => registerEffect_of_eq (exec_set hb) rfl

/-! ## Stack -/

/-- Room on the stack, as 43_stack.md R83 tests for it. -/
theorem stackFull_eq_false (h : s.cap = .unbounded ∨ ∃ c, s.cap = .entries c ∧ s.stack.length ≠ c) :
    s.stackFull = false := by
  rcases h with h | ⟨c, h, hc⟩
  · simp [State.stackFull, h]
  · simp [State.stackFull, h, hc]

theorem stackFull_eq_true {c : Nat} (h : s.cap = .entries c) (hc : s.stack.length = c) :
    s.stackFull = true := by
  simp [State.stackFull, h, hc]

theorem State.popped_eq {st : List Value} (h : s.stack = st ++ [v]) :
    s.popped = { s with stack := st } := by
  simp [State.popped, h]

theorem exec_push (ha : resolve s a = some va) :
    exec (.push a) s = withPush 2#16 va s fun t => .next (t.advance 2) :=
  withSrc_some ha _

theorem exec_push_room (ha : resolve s a = some va) (hroom : s.stackFull = false) :
    exec (.push a) s = .next ((s.pushed va).advance 2) :=
  (exec_push ha).trans (withPush_room hroom _)

theorem exec_pop {st : List Value} (hs : s.stack = st ++ [v]) :
    exec (.pop (.register d)) s = writeBack d v 2 { s with stack := st } := by
  rw [← State.popped_eq hs]
  exact withPop_concat hs _

theorem exec_ret {st : List Value} (hs : s.stack = st ++ [v]) :
    exec .ret s = .next ({ s with stack := st }.setPc v.toNat) := by
  rw [← State.popped_eq hs]
  exact withPop_concat hs fun v t => .next (t.setPc v.toNat)

theorem exec_ret_empty (hs : s.stack = []) : exec .ret s = .next s.halt :=
  withPop_empty hs fun v t => .next (t.setPc v.toNat)

/-- Settles O21: with room, the value goes on top. -/
theorem pushPutsValueOnTop : Obligations.PushPutsValueOnTop :=
  fun _ va s ha hcap => ⟨_, exec_push_room ha (stackFull_eq_false hcap),
    s.setPc_controlEffect (s.stack ++ [va]) (s.pc + 2)⟩

/-- Settles O23: pop writes the top entry back, on the state without it. -/
theorem popTakesTop : Obligations.PopTakesTop :=
  fun _ _ _ _ hs => ⟨_, exec_pop hs, State.getReg_setReg_self _ _ _, rfl, rfl,
    fun _ hj => State.getReg_setReg_ne _ hj _, fun _ => rfl, ⟨rfl, rfl⟩, ⟨rfl, rfl, rfl, rfl⟩, rfl⟩

/-- Settles O24: the empty stack is pop's fault and ret's halt. -/
theorem popOnEmptyStackUnderflows : Obligations.PopOnEmptyStackUnderflows :=
  fun s hs => ⟨fun _ => faultEffect_of_eq (withPop_empty hs _),
    ⟨s.halt, exec_ret_empty hs, s.halt_haltEffect⟩⟩

/-! ## ALU -/

theorem alu3_eq {f : Value → Value → Value} (hb : resolve s b = some vb) (hc : resolve s c = some vc) :
    alu3 sel f (.register d) b c s = writeBack d (f vb vc) 4 s := by
  simp only [alu3, withDst_register, withSrc_some hb, withSrc_some hc]

theorem toNat_truthValue (p : Bool) : (truthValue p).toNat = if p then 1 else 0 := by
  cases p <;> rfl

theorem toNat_eqValue (b c : Value) : (eqValue b c).toNat = if b.toNat = c.toNat then 1 else 0 := by
  simp only [eqValue, toNat_truthValue, beq_iff_eq]

theorem toNat_gtValue (b c : Value) : (gtValue b c).toNat = if b.toNat > c.toNat then 1 else 0 := by
  simp only [gtValue, toNat_truthValue, decide_eq_true_eq, gt_iff_lt]

theorem toNat_addValue (b c : Value) : (addValue b c).toNat = (b.toNat + c.toNat) % 32768 :=
  (BitVec.toNat_ofNat _ _).trans (Nat.mod_mod _ _)

theorem toNat_multValue (b c : Value) : (multValue b c).toNat = b.toNat * c.toNat % 32768 :=
  (BitVec.toNat_ofNat _ _).trans (Nat.mod_mod _ _)

theorem toNat_modValue (b c : Value) : (modValue b c).toNat = b.toNat % c.toNat :=
  (BitVec.toNat_ofNat _ _).trans (Nat.mod_eq_of_lt ((Nat.mod_le _ _).trans_lt b.isLt))

theorem notValue_eq_not (b : Value) : notValue b = ~~~b :=
  BitVec.xor_allOnes

theorem toNat_notValue (b : Value) : (notValue b).toNat = 32767 - b.toNat := by
  rw [notValue_eq_not, BitVec.toNat_not]

theorem exec_not (hb : resolve s b = some vb) :
    exec (.not (.register d) b) s = writeBack d (notValue vb) 3 s :=
  withSrc_some hb _

/-- Settles O26: the comparisons write the truth value of their test. -/
theorem eqAndGtWriteZeroOrOne : Obligations.EqAndGtWriteZeroOrOne :=
  fun _ _ _ vb vc _ hb hc => ⟨registerEffect_of_eq (alu3_eq hb hc) (toNat_eqValue vb vc),
    registerEffect_of_eq (alu3_eq hb hc) (toNat_gtValue vb vc)⟩

/-- Settles O27: the result is reduced before it is written. -/
theorem addAndMultReduceExactResult : Obligations.AddAndMultReduceExactResult :=
  fun _ _ _ vb vc _ hb hc => ⟨registerEffect_of_eq (alu3_eq hb hc) (toNat_addValue vb vc),
    registerEffect_of_eq (alu3_eq hb hc) (toNat_multValue vb vc)⟩

theorem exec_mod (hb : resolve s b = some vb) (hc : resolve s c = some vc) :
    exec (.mod (.register d) b c) s =
      if vc.toNat = 0 then raiseAt 11#16 .divideByZero .none s
      else writeBack d (modValue vb vc) 4 s := by
  simp only [exec, execMod, withDst_register, withSrc_some hb, withSrc_some hc, Instr.selector]

/-- Settles O28: the test for a zero divisor fails. -/
theorem modWritesRemainder : Obligations.ModWritesRemainder :=
  fun _ _ _ vb vc _ hb hc h0 =>
    registerEffect_of_eq ((exec_mod hb hc).trans (if_neg h0)) (toNat_modValue vb vc)

/-- Settles O29: the test for a zero divisor holds. -/
theorem modByZeroFaults : Obligations.ModByZeroFaults :=
  fun _ _ _ _ _ _ hb hc h0 => faultEffect_of_eq ((exec_mod hb hc).trans (if_pos h0))

/-- Settles O30: the results are the bitwise operations, and the inverse is the difference from 32767. -/
theorem bitwiseInstructionsActOnEachBit : Obligations.BitwiseInstructionsActOnEachBit := by
  intro d b c vb vc s hb hc
  refine ⟨registerEffect_of_eq (alu3_eq hb hc) (BitVec.toNat_and vb vc),
    registerEffect_of_eq (alu3_eq hb hc) (BitVec.toNat_or vb vc), ?_⟩
  obtain ⟨t, ht, heffect⟩ := registerEffect_of_eq (exec_not (d := d) hb) rfl
  have hxor : (notValue vb).toNat = vb.toNat ^^^ 32767 := BitVec.toNat_xor vb 32767#15
  exact ⟨t, ht, hxor ▸ heffect, heffect.result.trans (toNat_notValue vb)⟩

/-! ## Control transfer -/

theorem exec_jmp (ha : resolve s a = some va) : exec (.jmp a) s = .next (s.setPc va.toNat) :=
  withSrc_some ha _

theorem exec_jt (ha : resolve s a = some va) (hb : resolve s b = some vb) :
    exec (.jt a b) s = .next (s.setPc (if va.toNat ≠ 0 then vb.toNat else s.pc + 3)) := by
  by_cases h0 : va.toNat = 0
  · simp [exec, execJt, withSrc_some ha, withSrc_some hb, isNonzero, h0, State.advance]
  · simp [exec, execJt, withSrc_some ha, withSrc_some hb, isNonzero, h0]

theorem exec_jf (ha : resolve s a = some va) (hb : resolve s b = some vb) :
    exec (.jf a b) s = .next (s.setPc (if va.toNat = 0 then vb.toNat else s.pc + 3)) := by
  by_cases h0 : va.toNat = 0
  · simp [exec, execJf, withSrc_some ha, withSrc_some hb, isNonzero, h0]
  · simp [exec, execJf, withSrc_some ha, withSrc_some hb, isNonzero, h0, State.advance]

theorem exec_call (ha : resolve s a = some va) (hpc : s.pc + 2 ≤ 32767) :
    exec (.call a) s =
      withPush 17#16 (BitVec.ofNat 15 (s.pc + 2)) s fun t => .next (t.setPc va.toNat) :=
  (withSrc_some ha _).trans (if_neg (Nat.not_le.mpr (Nat.lt_succ_of_le hpc)))

theorem exec_call_room (ha : resolve s a = some va) (hpc : s.pc + 2 ≤ 32767)
    (hroom : s.stackFull = false) :
    exec (.call a) s = .next ((s.pushed (BitVec.ofNat 15 (s.pc + 2))).setPc va.toNat) :=
  (exec_call ha hpc).trans (withPush_room hroom _)

/-- A return address in the value domain is pushed as it is. -/
theorem toNat_returnValue {n : Nat} (h : n ≤ 32767) : (BitVec.ofNat 15 n).toNat = n :=
  (BitVec.toNat_ofNat _ _).trans (Nat.mod_eq_of_lt (Nat.lt_succ_of_le h))

/-- Settles O22: a push onto a full stack is the fault, also call's. -/
theorem fullStackOverflows : Obligations.FullStackOverflows := by
  rintro a va _ s ha hcap rfl
  have hfull := stackFull_eq_true hcap rfl
  exact ⟨faultEffect_of_eq ((exec_push ha).trans (withPush_full hfull _)),
    fun hpc => faultEffect_of_eq ((exec_call ha hpc).trans (withPush_full hfull _))⟩

/-- Settles O32: jmp writes pc only. -/
theorem jmpSetsPc : Obligations.JmpSetsPc :=
  fun _ _ s ha => ⟨_, exec_jmp ha, s.setPc_controlEffect s.stack _⟩

/-- Settles O33: the branches write pc only. -/
theorem jtAndJfTestResolvedValue : Obligations.JtAndJfTestResolvedValue :=
  fun _ _ _ _ s ha hb => ⟨⟨_, exec_jt ha hb, s.setPc_controlEffect s.stack _⟩,
    ⟨_, exec_jf ha hb, s.setPc_controlEffect s.stack _⟩⟩

/-- Settles O34: with room, call pushes the return address and jumps. -/
theorem callPushesReturnAddress : Obligations.CallPushesReturnAddress :=
  fun _ _ s ha hpc hcap => ⟨_, _, exec_call_room ha hpc (stackFull_eq_false hcap),
    toNat_returnValue hpc, s.setPc_controlEffect _ _⟩

/-- Settles O35: the return address is tested before the stack is. -/
theorem callNearTopFaults : Obligations.CallNearTopFaults :=
  fun _ _ _ ha hpc =>
    faultEffect_of_eq ((withSrc_some ha _).trans (if_pos (Nat.add_le_add_right hpc 2)))

/-- Settles O36: the two outcomes of a pop. -/
theorem retPopsOrHalts : Obligations.RetPopsOrHalts :=
  fun s => ⟨fun st v hs => ⟨_, exec_ret hs, s.setPc_controlEffect st v.toNat⟩,
    fun hs => ⟨_, exec_ret_empty hs, s.halt_haltEffect⟩⟩

/-! ## Memory access -/

/-- The cells a value addresses all exist (20_memory.md R36). -/
theorem memRead_value {m : Memory} {v : Value} {w : Word} (h : Memory.cell m v.toNat = some w) :
    memRead m v.toNat = .ok w :=
  memRead_eq_ok.mpr ⟨v.isLt.trans (by decide), h⟩

theorem exec_rmem_of_ok {w : Word} (hb : resolve s b = some vb)
    (hcell : Memory.cell s.mem vb.toNat = some w) :
    exec (.rmem (.register d) b) s =
      if 32768 ≤ w.toNat then raiseAt 15#16 .wordOutOfDomain (.cell vb.toNat w) s
      else writeBack d (w.setWidth 15) 3 s := by
  simp only [exec, execRmem, withDst_register, withSrc_some hb, memRead_value hcell, Instr.selector]

theorem exec_rmem_uninit (hb : resolve s b = some vb) (hcell : Memory.cell s.mem vb.toNat = none) :
    exec (.rmem (.register d) b) s = raiseAt 15#16 .uninitialisedRead (.address vb.toNat) s := by
  have hread : memRead s.mem vb.toNat = .error ⟨.uninitialisedRead, .address vb.toNat⟩ :=
    memRead_eq_error.mpr (.inr ⟨vb.isLt.trans (by decide), hcell, rfl⟩)
  simp only [exec, execRmem, withDst_register, withSrc_some hb, hread, Instr.selector, raiseAt_eq]

theorem exec_wmem (ha : resolve s a = some va) (hb : resolve s b = some vb) :
    exec (.wmem a b) s = .next ((s.memWrite (storeAddress va) (vb.setWidth 16)).advance 3) :=
  (withSrc_some ha _).trans (withSrc_some hb _)

/-- Settles O38: a word in the value domain is written back. -/
theorem rmemReadsCell : Obligations.RmemReadsCell :=
  fun _ _ _ m _ hb hcell hm =>
    have hlt : m.toNat < 32768 := Nat.lt_succ_of_le hm
    registerEffect_of_eq ((exec_rmem_of_ok hb hcell).trans (if_neg (Nat.not_le.mpr hlt)))
      ((BitVec.toNat_setWidth _ _).trans (Nat.mod_eq_of_lt hlt))

/-- Settles O39: the two faults of the cell read. -/
theorem rmemFaultsOnNoValue : Obligations.RmemFaultsOnNoValue :=
  fun _ _ _ _ hb => ⟨fun hcell => faultEffect_of_eq (exec_rmem_uninit hb hcell),
    fun _ hcell hm => faultEffect_of_eq ((exec_rmem_of_ok hb hcell).trans (if_pos hm))⟩

/-- Settles O40: the written cell, the others, and an advance. -/
theorem wmemWritesOneCell : Obligations.WmemWritesOneCell :=
  fun _ _ _ vb _ ha hb => ⟨_, _, exec_wmem ha hb, Memory.cell_write_self _ _ _, toNat_valueWord vb,
    fun _ hx => Memory.cell_write_ne _ _ hx, rfl, rfl, rfl, fun _ => rfl, ⟨rfl, rfl⟩,
    ⟨rfl, rfl, rfl, rfl⟩, rfl⟩

end

end Sys2Proof.Machine
end

section
/-! Input and output (47_io.md; 60_exceptions.md R125 to R131): what `in` answers with bytes in the buffer and
for each kind of line, and what the interception test tests. -/

namespace Sys2Proof.Machine

open Sys2Proof.Config

/-! ## The interception test -/

theorem toNat_foldByte (b : Byte) :
    (foldByte b).toNat = if 65 ≤ b.toNat ∧ b.toNat ≤ 90 then b.toNat + 32 else b.toNat := by
  unfold foldByte
  split
  · rw [BitVec.toNat_add, BitVec.toNat_ofNat, Nat.mod_eq_of_lt (by omega)]
  · rfl

theorem startsCI_iff {l : Line} {p : List Byte} :
    startsCI l p = true ↔
      p.length ≤ l.length ∧ ∀ i, i < p.length → l[i]?.map foldByte = p[i]? := by
  induction p generalizing l with
  | nil => simp [startsCI]
  | cons c p ih =>
    cases l with
    | nil => simp [startsCI]
    | cons b l =>
      simp only [startsCI, Bool.and_eq_true, beq_iff_eq, ih, List.length_cons, Nat.add_le_add_iff_right]
      rw [Nat.forall_lt_succ_left]
      simp only [List.getElem?_cons_zero, List.getElem?_cons_succ, Option.map_some, Option.some.injEq]
      tauto

/-- Settles O50: by recursion over the word and the line together. -/
theorem interceptionTestsFoldedPrefix : Obligations.InterceptionTestsFoldedPrefix :=
  ⟨fun _ _ => startsCI_iff, toNat_foldByte⟩

/-- No line starts with both words: their first letters differ. -/
theorem startsCI_save_of_load {l : Line} (h : startsCI l loadWord = true) :
    startsCI l saveWord = false := by
  cases l with
  | nil => cases h
  | cons b l =>
    have hb : foldByte b = 108#8 := by
      simp only [loadWord, startsCI, Bool.and_eq_true, beq_iff_eq] at h
      exact h.1
    simp [saveWord, startsCI, hb]

/-! ## in -/

section

variable {s : State} {sel : Word} {d : RegIdx} {a : Operand} {va : Value} {b : Byte}
  {rest : List Byte} {l : Line} {ls : List Line}

theorem exec_inp_byte (h : s.inbuf = b :: rest) :
    exec (.inp (.register d)) s = giveByte d b rest s := by
  simp only [exec, execInp, withDst_register, h]

theorem exec_inp_line (h : s.inbuf = []) (hl : s.lines = l :: ls) :
    exec (.inp (.register d)) s = takeLine 20#16 d l (s.setLines ls) := by
  simp only [exec, execInp, withDst_register, h, hl, Instr.selector]

theorem exec_inp_wait (h : s.inbuf = []) (hl : s.lines = []) :
    exec (.inp (.register d)) s = .fault .awaitingLine := by
  simp only [exec, execInp, withDst_register, h, hl]

theorem takeLine_save (h : startsCI l saveWord = true) : takeLine sel d l s = .next s.saveSnapshot :=
  if_pos h

theorem takeLine_load {sn : Snapshot} (h : startsCI l loadWord = true) (hsn : s.snap = some sn) :
    takeLine sel d l s = .next (s.restore sn) := by
  simp [takeLine, startsCI_save_of_load h, h, hsn]

theorem takeLine_noSnapshot (h : startsCI l loadWord = true) (hsn : s.snap = none) :
    takeLine sel d l s = raiseAt sel .noSnapshot .none s := by
  simp [takeLine, startsCI_save_of_load h, h, hsn]

theorem takeLine_ordinary (hsave : startsCI l saveWord = false) (hload : startsCI l loadWord = false) :
    takeLine sel d l s = giveByte d (refill l).1 (refill l).2 s := by
  simp [takeLine, hsave, hload]

/-- A refill is the line and the byte 10 (60_exceptions.md R126). -/
theorem refill_cons (l : Line) : (refill l).1 :: (refill l).2 = l ++ [newline] := by
  cases l <;> rfl

/-- An ordinary line is a buffer that holds it and the byte 10. -/
theorem exec_inp_ordinary (h : s.inbuf = []) (hl : s.lines = l :: ls)
    (hsave : startsCI l saveWord = false) (hload : startsCI l loadWord = false) :
    exec (.inp (.register d)) s =
      exec (.inp (.register d)) ((s.setLines ls).setInbuf (l ++ [newline])) := by
  rw [exec_inp_line h hl, takeLine_ordinary hsave hload]
  exact (exec_inp_byte (s := (s.setLines ls).setInbuf (l ++ [newline])) (refill_cons l).symm).symm

theorem toNat_byteValue (b : Byte) : (byteValue b).toNat = b.toNat :=
  (BitVec.toNat_setWidth _ _).trans (Nat.mod_eq_of_lt (b.isLt.trans (by decide)))

theorem exec_out (ha : resolve s a = some va) :
    exec (.out a) s = .next ((s.emit (outByte va)).advance 2) :=
  withSrc_some ha _

/-- Settles O43: one byte at the end of OUT. -/
theorem outEmitsLowByte : Obligations.OutEmitsLowByte :=
  fun _ va _ ha => ⟨_, outByte va, exec_out ha, rfl,
    (BitVec.toNat_ofNat _ _).trans (Nat.mod_mod _ _), rfl, rfl, fun _ => rfl, fun _ => rfl, ⟨rfl, rfl⟩,
    ⟨rfl, rfl, rfl, rfl⟩⟩

/-- Settles O44: the buffer's first byte is written back, and the rest stays. -/
theorem inGivesBufferedByte : Obligations.InGivesBufferedByte := by
  intro d b rest s h
  obtain ⟨t, ht, he⟩ := writeBack_registerEffect d (byteValue b) 2 (s.setInbuf rest)
  obtain ⟨hinbuf, hsnap, hlines, hcap⟩ := he.input
  exact ⟨t, (exec_inp_byte h).trans ht, he.result.trans (toNat_byteValue b), hinbuf, he.pc, hlines,
    hsnap, hcap, he.stack, he.regs, he.cells, he.status, he.output⟩

/-- Settles O45: the line and the byte 10 are in the buffer, and the first of them is given. -/
theorem inTakesOrdinaryLine : Obligations.InTakesOrdinaryLine := by
  intro d l ls s h hl hsave hload
  have hbuf := refill_cons l
  obtain ⟨t, ht, hreg, hinbuf, hpc, hlines, hkeep⟩ :=
    inGivesBufferedByte d _ _ ((s.setLines ls).setInbuf (l ++ [newline])) hbuf.symm
  exact ⟨t, _, (exec_inp_ordinary h hl hsave hload).trans ht, hinbuf ▸ hbuf, hreg, hlines, hpc,
    hkeep⟩

/-- Settles O47: a save writes the slot, and the line is taken. -/
theorem saveLineFillsSlot : Obligations.SaveLineFillsSlot :=
  fun _ _ _ _ h hl hsave => ⟨_, (exec_inp_line h hl).trans (takeLine_save hsave), rfl, rfl, rfl, h,
    rfl, rfl, fun _ => rfl, fun _ => rfl, ⟨rfl, rfl⟩, rfl⟩

/-- Settles O48: a load writes memory, pc and the registers, and the line is taken. -/
theorem loadLineRestoresSnapshot : Obligations.LoadLineRestoresSnapshot :=
  fun _ _ _ _ _ h hl hload hsn => ⟨_, (exec_inp_line h hl).trans (takeLine_load hload hsn), rfl, rfl,
    rfl, hsn, rfl, h, rfl, rfl, ⟨rfl, rfl⟩, rfl⟩

/-- Settles O49: the fault is raised after the line is taken. -/
theorem loadWithoutSnapshotFaults : Obligations.LoadWithoutSnapshotFaults :=
  fun _ _ _ _ h hl hload hsn => ⟨_, (exec_inp_line h hl).trans (takeLine_noSnapshot hload hsn), rfl,
    rfl, rfl, rfl, h, hsn, rfl, rfl, fun _ => rfl, fun _ => rfl, rfl⟩

end

end Sys2Proof.Machine
end

section
/-! Several instructions, one after the other (43_stack.md R84; 44_alu.md R95; 45_control.md R100, R101;
46_memory_access.md R103, R104; 60_exceptions.md R126). -/

namespace Sys2Proof.Machine

open Sys2Proof.Config

section

variable {s t : State} {i : Instr} {is js : List Instr} {d : RegIdx}

theorem execAll_cons (h : exec i s = .next t) : execAll (i :: is) s = execAll is t := by
  simp only [execAll, h]

theorem execAll_pair {j : Instr} (h : exec i s = .next t) : execAll [i, j] s = exec j t := by
  rw [execAll_cons h]
  cases hj : exec j t <;> simp [execAll, hj]

theorem execAll_append (h : execAll is s = .next t) : execAll (is ++ js) s = execAll js t := by
  induction is generalizing s with
  | nil =>
    cases h
    rfl
  | cons i is ih =>
    cases hi : exec i s with
    | next u =>
      rw [List.cons_append, execAll_cons hi]
      exact ih ((execAll_cons hi).symm.trans h)
    | fault | refused => simp [execAll, hi] at h

/-! ## Two instructions -/

/-- Resolution reads the registers only. -/
theorem resolve_congr (h : KeepsRegs s t) (o : Operand) : resolve t o = resolve s o := by
  cases o with
  | register i => exact congrArg some (h i)
  | literal | invalid => rfl

theorem notValue_notValue (v : Value) : notValue (notValue v) = v := by
  rw [notValue_eq_not, notValue_eq_not, BitVec.not_not]

/-- Settles O31: the inverse of the inverse is the value. -/
theorem notTwiceRestoresValue : Obligations.NotTwiceRestoresValue := by
  intro d e b vb s hb
  have hd : resolve ((s.setReg d (notValue vb)).advance 3) (.register d) = some (notValue vb) := by simp
  exact ⟨_, (execAll_pair (exec_not hb)).trans (exec_not hd), by simp [notValue_notValue], rfl⟩

/-- Settles O37: ret pops what call pushed. -/
theorem callThenRetResumesAfterCall : Obligations.CallThenRetResumesAfterCall := by
  intro a va s ha hpc hcap
  have hcall := exec_call_room ha hpc (stackFull_eq_false hcap)
  have hret := exec_ret (st := s.stack)
    (s := (s.pushed (BitVec.ofNat 15 (s.pc + 2))).setPc va.toNat) rfl
  refine ⟨_, (execAll_pair hcall).trans hret, ?_⟩
  rw [toNat_returnValue hpc]
  exact s.setPc_controlEffect s.stack (s.pc + 2)

/-- Settles O42: rmem reads the cell wmem wrote, because wmem leaves the registers. -/
theorem rmemReadsWhatWmemWrote : Obligations.RmemReadsWhatWmemWrote := by
  intro d a b va vb s ha hb
  obtain ⟨t, m, hwmem, hcell, hm, -, -, htpc, -, hregs, -⟩ := wmemWritesOneCell a b va vb s ha hb
  obtain ⟨u, hrmem, hu⟩ :=
    rmemReadsCell d a va m t ((resolve_congr hregs a).trans ha) hcell (hm.trans_le (value_le vb))
  refine ⟨u, (execAll_pair hwmem).trans hrmem, BitVec.eq_of_toNat_eq (hu.result.trans hm), ?_⟩
  rw [hu.pc, htpc]

/-! ## Pushes, then pops -/

/-- Pushes of literals on an unbounded stack put the literals on top, in order. -/
theorem execAll_pushes (vs : List Value) (hcap : s.cap = .unbounded) :
    ∃ t, execAll (vs.map fun v => .push (.literal v)) s = .next t ∧ t.stack = s.stack ++ vs := by
  induction vs generalizing s with
  | nil => exact ⟨s, rfl, by simp⟩
  | cons v vs ih =>
    have hpush := exec_push_room (s := s) (resolve_literal v) (stackFull_eq_false (.inl hcap))
    obtain ⟨t, ht, hst⟩ := ih (s := (s.pushed v).advance 2) hcap
    exact ⟨t, (execAll_cons hpush).trans ht, by simp [hst]⟩

/-- Pops to one register leave the last entry they took there. -/
theorem execAll_pops {st ws : List Value} {v : Value} (hs : s.stack = st ++ v :: ws) :
    ∃ t, execAll (List.replicate (ws.length + 1) (.pop (.register d))) s = .next t ∧
      t.getReg d = v ∧ t.stack = st := by
  induction ws using List.reverseRecOn generalizing s with
  | nil => exact ⟨_, execAll_cons (exec_pop hs), State.getReg_setReg_self _ _ _, rfl⟩
  | append_singleton ws w ih =>
    have hs : s.stack = (st ++ v :: ws) ++ [w] := by simp [hs]
    obtain ⟨t, ht, hkeep⟩ :=
      ih (s := ({ s with stack := st ++ v :: ws }.setReg d w).advance 2) rfl
    refine ⟨t, ?_, hkeep⟩
    rw [List.length_append, List.length_singleton, List.replicate_succ]
    exact (execAll_cons (exec_pop hs)).trans ht

/-- Settles O25: after the pushes, the last of k pops takes the k-th literal from the end. -/
theorem pushesThenPopsReverse : Obligations.PushesThenPopsReverse := by
  intro vs d k s hcap h1 hk
  obtain ⟨u, hu, hstack⟩ := execAll_pushes vs hcap
  have hlt : vs.length - k < vs.length := by omega
  have hsplit : u.stack = (s.stack ++ vs.take (vs.length - k)) ++
      vs[vs.length - k] :: vs.drop (vs.length - k + 1) := by
    rw [List.append_assoc, List.getElem_cons_drop, List.take_append_drop, hstack]
  obtain ⟨t, ht, hreg, hst⟩ := execAll_pops (d := d) hsplit
  have hcount : (vs.drop (vs.length - k + 1)).length + 1 = k := by
    rw [List.length_drop]
    omega
  refine ⟨t, (execAll_append hu).trans (hcount ▸ ht), ?_, hst⟩
  rw [hreg, List.getElem?_reverse (by omega), List.getElem?_eq_getElem (by omega)]
  congr 2
  omega

/-! ## A line, byte by byte -/

/-- Executions of `in` give the buffer's bytes in order, and no line is asked for. -/
theorem execAll_buffered {bs : List Byte} {k : Nat} (hbuf : s.inbuf = bs) (hk : k < bs.length) :
    ∃ t, execAll (List.replicate (k + 1) (.inp (.register d))) s = .next t ∧
      (t.getReg d).toNat = bs[k].toNat ∧ t.inbuf = bs.drop (k + 1) ∧ t.lines = s.lines ∧
      t.pc = s.pc + 2 * (k + 1) := by
  induction bs generalizing s k with
  | nil => simp at hk
  | cons b bs ih =>
    have hin := exec_inp_byte (d := d) hbuf
    cases k with
    | zero =>
      obtain ⟨t, ht, he⟩ := writeBack_registerEffect d (byteValue b) 2 (s.setInbuf bs)
      exact ⟨t, execAll_cons (hin.trans ht), he.result.trans (toNat_byteValue b), he.input.1,
        he.input.2.2.1, he.pc⟩
    | succ k =>
      obtain ⟨t, ht, hreg, hrest, hlines, hpc⟩ :=
        ih (s := ((s.setInbuf bs).setReg d (byteValue b)).advance 2) (k := k) rfl
          (Nat.lt_of_succ_lt_succ hk)
      refine ⟨t, (execAll_cons hin).trans ht, hreg, hrest, hlines, hpc.trans ?_⟩
      simp only [State.advance_pc, State.setReg_pc, State.setInbuf_pc]
      omega

/-- Settles O46: the first `in` finds the line as if it were in the buffer already. -/
theorem lineIsGivenWhole : Obligations.LineIsGivenWhole := by
  intro d l ls k s h hl hsave hload hk
  have hfirst : execAll (List.replicate (k + 1) (.inp (.register d))) s =
      execAll (List.replicate (k + 1) (.inp (.register d)))
        ((s.setLines ls).setInbuf (l ++ [newline])) := by
    simp only [List.replicate_succ, execAll, exec_inp_ordinary h hl hsave hload]
  have hlt : k < (l ++ [newline]).length := by simpa using Nat.lt_succ_of_le hk
  obtain ⟨t, ht, hreg, hrest, hlines, hpc⟩ :=
    execAll_buffered (s := (s.setLines ls).setInbuf (l ++ [newline])) (d := d) (bs := l ++ [newline]) rfl
      hlt
  refine ⟨t, hfirst.trans ht, ?_, hrest, hlines, hpc⟩
  rw [hreg, List.getElem?_eq_getElem hlt, Option.map_some]

end

end Sys2Proof.Machine
end

section
/-! Operand validation (40_engine.md R70, R74): the operands are checked in the order a, b, c, and the first one
that fails is the fault, whatever comes after it. -/

namespace Sys2Proof.Machine

section

variable {sel : Word} {s : State} {k : Nat} {role : Role} {o : Operand} {ops : List (Role × Operand)}
  {r : Result}

/-- The answer `r` of an instruction whose operands from position `k` on are `ops`: where one of them fails
validation, it is the fault of the first that does. -/
def FirstBadFaults (sel : Word) (s : State) (k : Nat) (ops : List (Role × Operand)) (r : Result) : Prop :=
  ∀ before role o after, ops = before ++ (role, o) :: after →
    (∀ p ∈ before, p.2.validIn p.1 = true) → o.validIn role = false →
    r = raiseAt sel (dstFault o) (.operand (k + before.length) o.toWord) s

theorem FirstBadFaults.nil : FirstBadFaults sel s k [] r :=
  fun _ _ _ _ h => by simp at h

/-- The first operand is the one that faults, or the answer is that of the operands after it. -/
theorem FirstBadFaults.cons
    (hbad : o.validIn role = false → r = raiseAt sel (dstFault o) (.operand k o.toWord) s)
    (hgood : o.validIn role = true → FirstBadFaults sel s (k + 1) ops r) :
    FirstBadFaults sel s k ((role, o) :: ops) r := by
  intro before role' o' after hops hbefore ho'
  cases before with
  | nil =>
    cases hops
    exact hbad ho'
  | cons p before =>
    obtain ⟨rfl, rfl⟩ := List.cons.inj hops
    obtain ⟨hp, hbefore⟩ := List.forall_mem_cons.mp hbefore
    rw [hgood hp before role' o' after rfl hbefore ho', List.length_cons, Nat.add_right_comm,
      Nat.add_assoc]

theorem withSrc_firstBad {f : Value → Result} (hf : ∀ v, FirstBadFaults sel s (k + 1) ops (f v)) :
    FirstBadFaults sel s k ((.src, o) :: ops) (withSrc sel k o s f) := by
  cases o with
  | literal v => exact .cons nofun fun _ => hf v
  | register i => exact .cons nofun fun _ => hf (s.getReg i)
  | invalid w => exact .cons (fun _ => rfl) nofun

theorem withDst_firstBad {f : RegIdx → Result} (hf : ∀ d, FirstBadFaults sel s 2 ops (f d)) :
    FirstBadFaults sel s 1 ((.dst, o) :: ops) (withDst sel o s f) := by
  cases o with
  | register d => exact .cons nofun fun _ => hf d
  | literal | invalid => exact .cons (fun _ => rfl) nofun

theorem alu3_firstBad {f : Value → Value → Value} {a b c : Operand} :
    FirstBadFaults sel s 1 [(.dst, a), (.src, b), (.src, c)] (alu3 sel f a b c s) :=
  withDst_firstBad fun _ => withSrc_firstBad fun _ => withSrc_firstBad fun _ => .nil

/-- Every instruction checks its operands in order, before anything else. -/
theorem exec_firstBad (i : Instr) (s : State) : FirstBadFaults i.selector s 1 i.operands (exec i s) := by
  cases i with
  | halt | ret | noop | unassigned => exact .nil
  | push | jmp | call | out => exact withSrc_firstBad fun _ => .nil
  | pop | inp => exact withDst_firstBad fun _ => .nil
  | jt | jf | wmem => exact withSrc_firstBad fun _ => withSrc_firstBad fun _ => .nil
  | set | not | rmem => exact withDst_firstBad fun _ => withSrc_firstBad fun _ => .nil
  | eq | gt | add | mult | and | or => exact alu3_firstBad
  | mod => exact withDst_firstBad fun _ => withSrc_firstBad fun _ => withSrc_firstBad fun _ => .nil

/-- Settles O15: an invalid word passes in neither role, and a literal not as a destination. -/
theorem firstBadOperandFaults : Obligations.FirstBadOperandFaults := by
  intro i before after role o s hops hbefore
  have hfault (ho : o.validIn role = false) :
      exec i s = raiseAt i.selector (dstFault o) (.operand (before.length + 1) o.toWord) s :=
    Nat.add_comm 1 before.length ▸ exec_firstBad i s before role o after hops hbefore ho
  constructor
  · rintro w rfl
    exact faultEffect_of_eq (hfault (by cases role <;> rfl))
  · rintro v rfl rfl
    exact faultEffect_of_eq (hfault rfl)

end

end Sys2Proof.Machine
end

section
/-! The step (40_engine.md R65 to R69, R76, R77; 60_exceptions.md R135): what it fetches, which fetches fault,
and when it exists. -/

namespace Sys2Proof.Machine

open Sys2Proof.Config

section

variable {s : State} {i : Instr} {c : Cause}

/-! ## Fetch -/

theorem memRead_outOfRange {m : Memory} {a : Nat} (h : 65536 ≤ a) :
    memRead m a = .error ⟨.addressOutOfRange, .address a⟩ :=
  memRead_eq_error.mpr (.inl ⟨h, rfl⟩)

theorem memRead_uninit {m : Memory} {a : Nat} (h : a < 65536) (hcell : Memory.cell m a = none) :
    memRead m a = .error ⟨.uninitialisedRead, .address a⟩ :=
  memRead_eq_error.mpr (.inr ⟨h, hcell, rfl⟩)

/-- An instruction whose words stand at pc is fetched. -/
theorem fetch_encode (hwf : i.wf = true) (hlen : s.pc + i.length ≤ 65536)
    (hcells : ∀ k < i.length, Memory.cell s.mem (s.pc + k) = (encode i)[k]?) : fetch s = .ok i := by
  have hread (k : Nat) (w : Word) (hk : k < i.length) (hw : (encode i)[k]? = some w) :
      memRead s.mem (s.pc + k) = .ok w :=
    memRead_eq_ok.mpr ⟨(Nat.add_lt_add_left hk _).trans_le hlen, (hcells k hk).trans hw⟩
  have hops : i.length = 1 + i.operands.length := rfl
  refine fetch_eq_ok.mpr
    ⟨i.selector, hread 0 _ (by omega) rfl, decodeOperands_selector hwf fun k p hp => ?_⟩
  have hk : k < i.operands.length := (List.getElem?_eq_some_iff.mp hp).1
  exact hread (k + 1) _ (by omega) (by simp [encode, hp])

theorem step_of_fetch_error {o : Option Word} (hrun : s.run = .running) (h : fetch s = .error (o, c)) :
    ∃ t, step s = .next t ∧ FaultEffect o c.kind c.info s t :=
  ⟨s.raise o c, by simp only [step, hrun, h], s.raise_faultEffect o c⟩

/-- The fault of the selector's fetch has no opcode (40_engine.md R67). -/
theorem step_selector_error (hrun : s.run = .running) (h : memRead s.mem s.pc = .error c) :
    ∃ t, step s = .next t ∧ FaultEffect none c.kind c.info s t :=
  step_of_fetch_error hrun (by simp only [fetch, h])

/-- The fault of the first operand word that cannot be read has the selector (40_engine.md R69). -/
theorem step_operand_error {sel : Word} {k : Nat} (hrun : s.run = .running)
    (hsel : memRead s.mem s.pc = .ok sel) (h1 : 1 ≤ k) (hk : k ≤ arity sel)
    (hbefore : ∀ j, 1 ≤ j → j < k → ∃ w, operandAt s j = .ok w) (h : operandAt s k = .error c) :
    ∃ t, step s = .next t ∧ FaultEffect (some sel) c.kind c.info s t := by
  have hdecode := (decodeOperands_format sel (operandAt s)).error h1 hk hbefore h
  exact step_of_fetch_error hrun (by simp only [fetch, hsel, hdecode])

/-- Settles O11: what the words decode to encodes to them, so it is what is fetched. -/
theorem stepRunsDecodedInstruction : Obligations.StepRunsDecodedInstruction := by
  intro s ws i hrun hdecode hlen hcells
  obtain ⟨hwf, hws⟩ := decode_eq_ok hdecode
  obtain rfl : encode i = ws := (List.append_nil _).symm.trans hws
  have hlength : (encode i).length = i.length := by simp [encode, Instr.length, Nat.add_comm]
  rw [hlength] at hlen hcells
  exact step_of_fetch_ok hrun (fetch_encode hwf hlen hcells)

/-- Settles O13: the two ways the selector's fetch can fail. -/
theorem selectorFetchFaults : Obligations.SelectorFetchFaults :=
  fun _ hrun => ⟨fun hpc => step_selector_error hrun (memRead_outOfRange hpc),
    fun hpc hcell => step_selector_error hrun (memRead_uninit hpc hcell)⟩

/-- Settles O3: cell 0 of the empty image is `UNINIT`. -/
theorem emptyImageFaultsAtFirstStep : Obligations.EmptyImageFaultsAtFirstStep :=
  ⟨rfl, fun cap lines =>
    (selectorFetchFaults (State.boot [] cap lines) rfl).2 (Nat.zero_lt_succ _) rfl⟩

/-- Settles O14: the two ways an operand word's fetch can fail. -/
theorem operandFetchFaultsInOrder : Obligations.OperandFetchFaultsInOrder := by
  intro s sel k hrun hpc hcell h1 hk hbefore
  have hsel : memRead s.mem s.pc = .ok sel := memRead_eq_ok.mpr ⟨hpc, hcell⟩
  have hread (j : Nat) (hj1 : 1 ≤ j) (hjk : j < k) : ∃ w, operandAt s j = .ok w := by
    obtain ⟨hlt, hne⟩ := hbefore j hj1 hjk
    obtain ⟨w, hw⟩ := Option.ne_none_iff_exists'.mp hne
    exact ⟨w, memRead_eq_ok.mpr ⟨hlt, hw⟩⟩
  exact ⟨fun hout => step_operand_error hrun hsel h1 hk hread (memRead_outOfRange hout),
    fun hlt hnone => step_operand_error hrun hsel h1 hk hread (memRead_uninit hlt hnone)⟩

/-- Settles O41: the written cell is the one fetched next; 0 is `halt`, and a word of 21 or more is O19's. -/
theorem nextFetchSeesWmem : Obligations.NextFetchSeesWmem := by
  intro a b va vb s hrun ha hb hva
  obtain ⟨t, m, hwmem, hcell, hm, -, haddr, hpc, hst, -, ⟨htrun, -⟩, -⟩ :=
    wmemWritesOneCell a b va vb s ha hb
  have hrun : t.run = .running := htrun.trans hrun
  have hlt : t.pc < 65536 := by
    have := value_le va
    omega
  have hcell : Memory.cell t.mem t.pc = some m := by rw [hpc, ← hva, ← haddr, hcell]
  refine ⟨t, hwmem, hpc, fun h0 => ?_, fun h21 => ?_⟩
  · obtain rfl : m = 0#16 := BitVec.eq_of_toNat_eq (hm.trans h0)
    have hfetch : fetch t = .ok .halt := fetch_eq_ok.mpr ⟨0#16, memRead_eq_ok.mpr ⟨hlt, hcell⟩, rfl⟩
    exact ⟨t.halt, step_of_fetch_ok hrun hfetch, t.halt_haltEffect⟩
  · obtain ⟨u, hu, heffect⟩ := selectorsFromTwentyOneStepByOneWord t m hrun hlt hcell (hm.symm ▸ h21)
    rw [hpc, hst] at heffect
    exact ⟨u, hu, heffect⟩

/-! ## Which instructions answer a next state -/

section

variable {sel : Word} {k : Nat} {o : Operand}

theorem withSrc_answers {f : Value → Result} (hf : ∀ v, ∃ t, f v = .next t) :
    ∃ t, withSrc sel k o s f = .next t := by
  cases o with
  | literal v => exact hf v
  | register i => exact hf (s.getReg i)
  | invalid w => exact ⟨_, rfl⟩

theorem withDst_answers {f : RegIdx → Result} (hf : ∀ d, ∃ t, f d = .next t) :
    ∃ t, withDst sel o s f = .next t := by
  cases o with
  | register d => exact hf d
  | literal | invalid => exact ⟨_, rfl⟩

theorem withPush_answers {v : Value} {f : State → Result} (hf : ∀ u, ∃ t, f u = .next t) :
    ∃ t, withPush sel v s f = .next t := by
  cases hfull : s.stackFull with
  | true => exact ⟨_, withPush_full hfull f⟩
  | false => exact withPush_room (sel := sel) hfull f ▸ hf _

theorem withPop_answers {e : Result} {f : Value → State → Result} (he : ∃ t, e = .next t)
    (hf : ∀ v u, ∃ t, f v u = .next t) : ∃ t, withPop s e f = .next t := by
  unfold withPop
  split
  · exact he
  · exact hf _ _

theorem ite_answers {p : Prop} [Decidable p] {r r' : Result} (h : ∃ t, r = .next t)
    (h' : ∃ t, r' = .next t) : ∃ t, (if p then r else r') = .next t := by
  split
  · exact h
  · exact h'

theorem alu3_answers {f : Value → Value → Value} {a b c : Operand} :
    ∃ t, alu3 sel f a b c s = .next t :=
  withDst_answers fun _ => withSrc_answers fun _ => withSrc_answers fun _ => ⟨_, rfl⟩

theorem execRmem_answers (a b : Operand) : ∃ t, execRmem a b s = .next t :=
  withDst_answers fun _ => withSrc_answers fun _ => by
    split
    · exact ⟨_, rfl⟩
    · exact ite_answers ⟨_, rfl⟩ ⟨_, rfl⟩

end

theorem execRet_answers (s : State) : ∃ t, execRet s = .next t :=
  withPop_answers ⟨_, rfl⟩ fun _ _ => ⟨_, rfl⟩

/-- A line, whatever it holds, is taken. -/
theorem takeLine_answers {sel : Word} {d : RegIdx} {l : Line} :
    ∃ t, takeLine sel d l s = .next t ∧ t.lines = s.lines := by
  unfold takeLine
  split
  · exact ⟨_, rfl, rfl⟩
  · split
    · split
      · exact ⟨_, rfl, rfl⟩
      · exact ⟨_, rfl, rfl⟩
    · exact ⟨_, rfl, rfl⟩

/-- Every instruction answers a next state but an `in` that waits (40_engine.md R77). -/
theorem exec_answers_or_waits (i : Instr) (s : State) :
    (∃ t, exec i s = .next t) ∨
      s.inbuf = [] ∧ s.lines = [] ∧ ∃ d, i = .inp (.register d) := by
  cases i with
  | halt | noop | unassigned => exact .inl ⟨_, rfl⟩
  | jmp | out => exact .inl (withSrc_answers fun _ => ⟨_, rfl⟩)
  | wmem => exact .inl (withSrc_answers fun _ => withSrc_answers fun _ => ⟨_, rfl⟩)
  | jt | jf =>
    exact .inl (withSrc_answers fun _ => withSrc_answers fun _ => ite_answers ⟨_, rfl⟩ ⟨_, rfl⟩)
  | push => exact .inl (withSrc_answers fun _ => withPush_answers fun _ => ⟨_, rfl⟩)
  | call =>
    exact .inl (withSrc_answers fun _ => ite_answers ⟨_, rfl⟩ (withPush_answers fun _ => ⟨_, rfl⟩))
  | pop => exact .inl (withDst_answers fun _ => withPop_answers ⟨_, rfl⟩ fun _ _ => ⟨_, rfl⟩)
  | ret => exact .inl (execRet_answers s)
  | set | not => exact .inl (withDst_answers fun _ => withSrc_answers fun _ => ⟨_, rfl⟩)
  | eq | gt | add | mult | and | or => exact .inl alu3_answers
  | mod =>
    exact .inl (withDst_answers fun _ => withSrc_answers fun _ => withSrc_answers fun _ =>
      ite_answers ⟨_, rfl⟩ ⟨_, rfl⟩)
  | rmem a b => exact .inl (execRmem_answers a b)
  | inp a =>
    cases a with
    | literal | invalid => exact .inl ⟨_, rfl⟩
    | register d =>
      cases hbuf : s.inbuf with
      | cons b rest => exact .inl ⟨_, exec_inp_byte hbuf⟩
      | nil =>
        cases hlines : s.lines with
        | nil => exact .inr ⟨rfl, rfl, d, rfl⟩
        | cons l ls =>
          obtain ⟨t, ht, -⟩ := takeLine_answers (sel := 20#16) (d := d) (l := l) (s := s.setLines ls)
          exact .inl ⟨t, (exec_inp_line hbuf hlines).trans ht⟩

/-! ## The conditions -/

/-- Waiting, in the words of 40_engine.md R77. -/
theorem State.waiting_iff :
    s.waiting = true ↔
      s.run = .running ∧ s.inbuf = [] ∧ s.lines = [] ∧ ∃ d, fetch s = .ok (.inp (.register d)) := by
  simp only [State.waiting, Bool.and_eq_true, beq_iff_eq, List.isEmpty_iff, and_assoc]
  refine and_congr_right' (and_congr_right' (and_congr_right' ⟨fun h => ?_, fun ⟨d, hd⟩ => ?_⟩))
  · split at h
    · exact ⟨_, ‹_›⟩
    · cases h
  · simp only [hd]

/-- What each of the four conditions says of the state. -/
inductive ConditionCase (s : State) : Condition → Prop where
  | running (run : s.run = .running) (ready : s.waiting = false) : ConditionCase s .running
  | waiting (waits : s.waiting = true) : ConditionCase s .waiting
  | halted (run : s.run = .halted) : ConditionCase s .halted
  | faulted (run : s.run = .faulted) : ConditionCase s .faulted

theorem conditionCase_of_eq {cond : Condition} (h : s.condition = cond) : ConditionCase s cond := by
  subst h
  unfold State.condition
  split
  · exact .halted ‹_›
  · exact .faulted ‹_›
  · split
    · exact .waiting ‹_›
    · exact .running ‹_› (Bool.eq_false_of_not_eq_true ‹_›)

/-- A waiting machine has no step. -/
theorem step_of_waiting (h : s.waiting = true) : step s = .fault .awaitingLine := by
  obtain ⟨hrun, hbuf, hlines, d, hfetch⟩ := State.waiting_iff.mp h
  exact (step_of_fetch_ok hrun hfetch).trans (exec_inp_wait hbuf hlines)

/-- A running machine that is not waiting has a step: a fetch fault's, or its instruction's. -/
theorem step_answers (hrun : s.run = .running) (hw : s.waiting = false) : ∃ t, step s = .next t := by
  cases hf : fetch s with
  | error e =>
    obtain ⟨t, ht, -⟩ := step_of_fetch_error hrun hf
    exact ⟨t, ht⟩
  | ok i =>
    rw [step_of_fetch_ok hrun hf]
    rcases exec_answers_or_waits i s with h | ⟨hbuf, hlines, d, rfl⟩
    · exact h
    · simp [State.waiting_iff.mpr ⟨hrun, hbuf, hlines, d, hf⟩] at hw

/-- Settles O12: by the run state, and for a Running machine by whether it waits. -/
theorem stepExistsExactlyWhenRunningAndNotWaiting :
    Obligations.StepExistsExactlyWhenRunningAndNotWaiting := by
  refine fun s => ⟨fun h => ?_, fun h => ?_, fun h => ?_, fun h => ?_⟩
  · cases conditionCase_of_eq h with
    | running hrun ready => exact step_answers hrun ready
  · cases conditionCase_of_eq h with
    | waiting waits => exact step_of_waiting waits
  · cases conditionCase_of_eq h with
    | halted hrun => simp only [step, hrun]
  · cases conditionCase_of_eq h with
    | faulted hrun => simp only [step, hrun]

/-- Settles O51: the line delivered is the one the fetched `in` takes. -/
theorem lineEndsTheWait : Obligations.LineEndsTheWait := by
  intro s l h
  have waits : s.waiting = true := by
    cases conditionCase_of_eq h with
    | waiting waits => exact waits
  refine ⟨step_of_waiting waits, ?_⟩
  obtain ⟨hrun, hbuf, hlines, d, hfetch⟩ := State.waiting_iff.mp waits
  have hdelivered : (s.deliverLine l).lines = l :: [] := congrArg (· ++ [l]) hlines
  have hstep : step (s.deliverLine l) = takeLine 20#16 d l ((s.deliverLine l).setLines []) :=
    (step_of_fetch_ok (s := s.deliverLine l) hrun hfetch).trans (exec_inp_line hbuf hdelivered)
  obtain ⟨t, ht, htl⟩ :=
    takeLine_answers (sel := 20#16) (d := d) (l := l) (s := (s.deliverLine l).setLines [])
  exact ⟨t, hstep.trans ht, htl⟩

end

end Sys2Proof.Machine
end
